-- ==== Sys2Proof/Word.lean ====
section
/-! DEFINITION. The three widths the HCE uses: the byte stream, the 32-bit words of the compressors and the 64-bit
counter (spec/20_memory.md R44, spec/40_context_commands.md R82). `+32`, `and`, `or`, `xor`, `not32` of
spec/00_scope.md R9 are `+`, `&&&`, `|||`, `^^^`, `~~~` on `Word`. -/

namespace Sys2Proof

/-- A byte of the message, the pending store or a digest. -/
abbrev Byte := BitVec 8

/-- A 32-bit accumulator, working or schedule word; every value is unsigned (R82). -/
abbrev Word := BitVec 32

/-- A 64-bit bit count (spec/10_state.md R17). -/
abbrev Count := BitVec 64

/-- A block: exactly 64 bytes. A block of another length cannot be written
(spec/41_compress_md5.md R85, spec/93_implementation_defined.md U1). -/
abbrev Block := Vector Byte 64

end Sys2Proof
end

