-- ==== Sys2Proof/Config.lean ====
section
/-! DEFINITION. The implementation parameters (spec/00_scope.md R8) and the one free value the spec leaves. The
parameters that are plain widths are types (`Word`, `Count`, `Block`) or literals where they are used. -/

namespace Sys2Proof

/-- The two units, `NUNITS = 2` (R8, spec/10_state.md R13): U0 is MD5, U1 is SHA-1 (R2). -/
inductive UnitId where
  | md5
  | sha1
deriving DecidableEq, Repr

/-- `NW(u)`: accumulator words of unit u (R8). -/
def NW : UnitId → Nat
  | .md5 => 4
  | .sha1 => 5

/-- `DL(u)`: digest length of unit u in bytes (R8). -/
def DL : UnitId → Nat
  | .md5 => 16
  | .sha1 => 20

/-- The bit that names a unit, in the command code and in STATUS: 0 for U0, 1 for U1 (spec/30_encoding.md R54). -/
def UnitId.bit : UnitId → Bool
  | .md5 => false
  | .sha1 => true

/-- The unit a bit names (spec/30_encoding.md R54). -/
def UnitId.ofBit : Bool → UnitId
  | false => .md5
  | true => .sha1

/-- FREE VALUE: the byte that the k-th observation read returns when it selects a residue byte of `BUF[u]`
(spec/10_state.md R22: "returns an unspecified byte"; spec/93_implementation_defined.md U3: "any value, and possibly
different at each read"). Log entry 4. -/
opaque Config.freeByte : Nat → Byte

/-- `BASE`, the bus address of the block: an open parameter that no rule uses, so nothing of the model reads it
(R8, spec/20_memory.md R46, spec/93_implementation_defined.md U13). Log entry 12. -/
opaque Config.base : Nat

end Sys2Proof
end

