-- ==== Sys2Proof/Syntax.lean ====
section
/-! DEFINITION. The commands (spec/30_encoding.md R55): one constructor per row of spec/opcode_table.json. The `P` bit
of UPDATE is the presence of its operand, so a command without an operand cannot carry one
(spec/93_implementation_defined.md U10). -/

namespace Sys2Proof

/-- The six commands. An UPDATE operand is the byte sequence `data`; its count is `n = |data|` (R56). -/
inductive Instr where
  /-- INIT.MD5 (spec/40_context_commands.md R70). -/
  | initMd5
  /-- INIT.SHA1 (R71). -/
  | initSha1
  /-- UPDATE.MD5 (R73): `some data` when P = 1, `none` when P = 0. -/
  | updateMd5 (operand : Option (List Byte))
  /-- UPDATE.SHA1 (R74): `some data` when P = 1, `none` when P = 0. -/
  | updateSha1 (operand : Option (List Byte))
  /-- FINAL.MD5 (R76): `sink` is P, a digest sink is present. -/
  | finalMd5 (sink : Bool)
  /-- FINAL.SHA1 (R77): `sink` is P, a digest sink is present. -/
  | finalSha1 (sink : Bool)
deriving DecidableEq, Repr

/-- INIT addressed to unit u. -/
def Instr.init : UnitId → Instr
  | .md5 => .initMd5
  | .sha1 => .initSha1

/-- UPDATE addressed to unit u. -/
def Instr.update : UnitId → Option (List Byte) → Instr
  | .md5, operand => .updateMd5 operand
  | .sha1, operand => .updateSha1 operand

/-- FINAL addressed to unit u. -/
def Instr.final : UnitId → Bool → Instr
  | .md5, sink => .finalMd5 sink
  | .sha1, sink => .finalSha1 sink

/-- The unit a command is addressed to. -/
def Instr.unit : Instr → UnitId
  | .initMd5 | .updateMd5 _ | .finalMd5 _ => .md5
  | .initSha1 | .updateSha1 _ | .finalSha1 _ => .sha1

/-- The pseudo-commands HASH.MD5 and HASH.SHA1 (spec/30_encoding.md R67): INIT, one UPDATE, FINAL. -/
def Instr.hash (u : UnitId) (message : List Byte) : List Instr :=
  [.init u, .update u (some message), .final u true]

/-- One command frame at the command port (spec/30_encoding.md R53): the command code and the bytes that accompany it.
The count `n` is `|data|` (R56), so a frame whose data is of another length than n cannot be written. -/
structure Frame where
  cc   : BitVec 8
  data : List Byte
deriving DecidableEq, Repr

end Sys2Proof
end

