-- ==== Sys2Proof/WellFormed.lean ====
section
/-! DEFINITION. What makes a command one the port can carry: the byte count `n` of an operand is 64 bits wide
(spec/30_encoding.md R53, R56). -/

namespace Sys2Proof

/-- The operand's byte count fits `n : 64` (R56). -/
def countFits (data : List Byte) : Bool := decide (data.length < 2 ^ 64)

/-- A command the command port can carry: the count of an UPDATE operand fits its field; INIT and FINAL carry none. -/
def Instr.wf : Instr → Bool
  | .initMd5 => true
  | .initSha1 => true
  | .updateMd5 none => true
  | .updateMd5 (some data) => countFits data
  | .updateSha1 none => true
  | .updateSha1 (some data) => countFits data
  | .finalMd5 _ => true
  | .finalSha1 _ => true

/-- A frame the command port can carry. -/
def Frame.wf (f : Frame) : Bool := countFits f.data

end Sys2Proof
end

