-- ==== Sys2Proof/Decode.lean ====
section
/-! DEFINITION. Decoding a command frame (spec/30_encoding.md R54 to R60), total, rejecting by name; and, after it, the
encoder written from the same table. -/

namespace Sys2Proof

/-- Why a command code is illegal (R57). -/
inductive DecodeError where
  /-- `RSV != 0`: 0x10 to 0xFF. -/
  | reservedBits
  /-- `OP = 0b00`: 0x00, 0x04, 0x08, 0x0C. -/
  | reservedOp
  /-- `OP = INIT` and `P = 1`: 0x09, 0x0D. -/
  | initWithOperand
deriving DecidableEq, Repr

/-- `RSV`, bits 7:4 of the command code (R54). -/
def ccRsv (cc : BitVec 8) : BitVec 4 := cc.extractLsb' 4 4

/-- `P`, bit 3 (R54). -/
def ccP (cc : BitVec 8) : Bool := cc.getLsbD 3

/-- `U`, bit 2 (R54). -/
def ccU (cc : BitVec 8) : Bool := cc.getLsbD 2

/-- `OP`, bits 1:0 (R54). -/
def ccOp (cc : BitVec 8) : BitVec 2 := cc.extractLsb' 0 2

/-- Decode, in the order of R58. The bytes that accompany a command without an operand are ignored (R56). -/
def decode (f : Frame) : Except DecodeError Instr :=
  if ccRsv f.cc ≠ 0 then .error .reservedBits
  else if ccOp f.cc = 0b00#2 then .error .reservedOp
  else if ccOp f.cc = 0b01#2 ∧ ccP f.cc = true then .error .initWithOperand
  else if ccOp f.cc = 0b01#2 then .ok (.init (UnitId.ofBit (ccU f.cc)))
  else if ccOp f.cc = 0b10#2 then
    .ok (.update (UnitId.ofBit (ccU f.cc)) (if ccP f.cc then some f.data else none))
  else .ok (.final (UnitId.ofBit (ccU f.cc)) (ccP f.cc))

/-- The instruction the decoder reads from the command code `w` with no operand bytes. The opcode table gives every row
8 bits, the whole command code (R60), and the operand is no part of it. Log entry 10. -/
def decodeTableWord (_nbits w : Nat) : Option Instr :=
  (decode ⟨BitVec.ofNat 8 w, []⟩).toOption

/-- A command code from its fields, with `RSV = 0` (R54). -/
def ccOfFields (p : Bool) (u : UnitId) (op : BitVec 2) : BitVec 8 :=
  (0#4 ++ (BitVec.ofBool p ++ (BitVec.ofBool u.bit ++ op : BitVec 3) : BitVec 4) : BitVec 8)

/-- `OP` of a command (R54). -/
def Instr.op : Instr → BitVec 2
  | .initMd5 | .initSha1 => 0b01#2
  | .updateMd5 _ | .updateSha1 _ => 0b10#2
  | .finalMd5 _ | .finalSha1 _ => 0b11#2

/-- `P` of a command (R54): an operand or a digest sink is present; 0 for INIT. -/
def Instr.p : Instr → Bool
  | .initMd5 | .initSha1 => false
  | .updateMd5 operand | .updateSha1 operand => operand.isSome
  | .finalMd5 sink | .finalSha1 sink => sink

/-- The operand bytes of a command: those of an UPDATE with P = 1, else none (R56). -/
def Instr.operandBytes : Instr → List Byte
  | .updateMd5 operand | .updateSha1 operand => operand.getD []
  | .initMd5 | .initSha1 | .finalMd5 _ | .finalSha1 _ => []

/-- The frame of a command (R53, R54, R55). -/
def encode (i : Instr) : Frame := ⟨ccOfFields i.p i.unit i.op, i.operandBytes⟩

end Sys2Proof
end

