-- ==== Sys2Proof/Machine/State.lean ====
section
/-! DEFINITION. The state of the HCE (spec/10_state.md R13) with the transactions at its ports (spec/30_encoding.md R53),
as plain data, and the state after reset (R33). -/

namespace Sys2Proof.Machine

/-- `LIFE[u]`, the lifecycle flag (R23). -/
inductive Life where
  | absent
  | active
  | finalized
  | corrupted
deriving DecidableEq, Repr

/-- The errors a command can raise (spec/30_encoding.md R62, spec/60_exceptions.md R119 to R122). -/
inductive CommandError where
  /-- The context, the buffer or the digest sink is absent (R119). -/
  | nullInput
  /-- UPDATE or FINAL on a Finalized or Corrupted context (R120). -/
  | stateError
  /-- The bit counter would pass 64 bits (R122). -/
  | overflow
  /-- The command code is illegal (R121). -/
  | illegalCommand
deriving DecidableEq, Repr

/-- `STATUS` of a response (spec/30_encoding.md R62). -/
inductive Status where
  | ok
  | error (e : CommandError)
deriving DecidableEq, Repr

/-- A response frame (spec/30_encoding.md R61): the digest is present only for a successful FINAL. -/
structure Response where
  status : Status
  ncomp  : BitVec 64
  digest : Option (List Byte)
deriving DecidableEq, Repr

/-- The event `COMPRESS(u, blk)` of the observation trace (spec/30_encoding.md R63). -/
structure CompressEvent where
  unit  : UnitId
  block : Block
deriving DecidableEq, Repr

/-- What the host can present between two steps: a command frame (R53), an observation read (R65), or the reset event
(spec/70_reset_and_hazards.md R135, R136). -/
inductive Transaction where
  | command (f : Frame)
  | observe (u : UnitId) (sel : BitVec 8)
  | reset
deriving DecidableEq, Repr

/-- The context and output register of one unit (R13). -/
structure HashUnit (u : UnitId) where
  /-- `H[u]`, the accumulator (R14). -/
  h    : Vector Word (NW u)
  /-- `LEN[u]`, the count of message bits (R17). -/
  len  : Count
  /-- `BUF[u]`, the 64-byte store (R20). -/
  buf  : Vector Byte 64
  /-- `LIFE[u]` (R23). -/
  life : Life
  /-- `DOUT[u]`, the digest output register (R25). -/
  dout : Vector Byte (DL u)
deriving DecidableEq, Repr

/-- The machine: the two units, the transactions waiting at the ports, what the ports have answered, the trace, and the
counter that indexes the free value. -/
structure State where
  /-- U0 (MD5). -/
  u0        : HashUnit .md5
  /-- U1 (SHA-1). -/
  u1        : HashUnit .sha1
  /-- Transactions the host has presented and the HCE has not yet taken, oldest first. Log entry 1. -/
  inbox     : List Transaction
  /-- Responses returned, oldest first (spec/30_encoding.md R61). Log entry 2. -/
  responses : List Response
  /-- Results of observation reads, oldest first (R65). Log entry 2. -/
  reads     : List (BitVec 32)
  /-- The `COMPRESS` events, oldest first (R63); nothing reads them. Log entry 2. -/
  trace     : List CompressEvent
  /-- The model's own: how many observation reads have been made; it indexes `Config.freeByte`. Log entry 4. -/
  freeIndex : Nat
deriving DecidableEq, Repr

/-- Why the machine stops with a fault. It never does: "the HCE never halts, locks up or stops accepting commands because
of an error" (spec/30_encoding.md R61), so there is no constructor and nothing raises one. Log entry 6. -/
inductive Fault where
deriving DecidableEq, Repr

/-- Why an instruction has no meaning. -/
inductive Refusal where
  /-- Raised by an arm of exec whose instruction has no meaning yet; no arm raises it. Safe: the run stops. -/
  | notModelled (mnemonic : String)
deriving DecidableEq, Repr

/-- A unit after reset (R33). -/
def HashUnit.reset (u : UnitId) : HashUnit u where
  h := Vector.replicate (NW u) 0
  len := 0
  buf := Vector.replicate 64 0
  life := .absent
  dout := Vector.replicate (DL u) 0

/-- The machine after reset: both units as R33 says, nothing at the ports. -/
def State.reset : State where
  u0 := HashUnit.reset .md5
  u1 := HashUnit.reset .sha1
  inbox := []
  responses := []
  reads := []
  trace := []
  freeIndex := 0

end Sys2Proof.Machine
end

