-- ==== Sys2Proof/Machine/Operands.lean ====
section
/-! DEFINITION. Bytes, words and operands: the conversion primitives (spec/20_memory.md R35 to R40), the rotation
(spec/00_scope.md R9), block decode, cutting a byte stream into blocks, and the views of a unit's registers
(spec/10_state.md R18, R20, R21, R22). -/

namespace Sys2Proof.Machine

/-- `rotl32(x, s)` for 1 ≤ s ≤ 31 (R9). -/
def rotl32 (x : Word) (s : Nat) : Word := (x <<< s) ||| (x >>> (32 - s))

/-- `le32` (R35): the first byte is the least significant. -/
def le32 (s0 s1 s2 s3 : Byte) : Word :=
  BitVec.ofNat 32 (s0.toNat + 2 ^ 8 * s1.toNat + 2 ^ 16 * s2.toNat + 2 ^ 24 * s3.toNat)

/-- `be32` (R36): the first byte is the most significant. -/
def be32 (s0 s1 s2 s3 : Byte) : Word :=
  BitVec.ofNat 32 (2 ^ 24 * s0.toNat + 2 ^ 16 * s1.toNat + 2 ^ 8 * s2.toNat + s3.toNat)

/-- `le_bytes(v, n)` (R37): least significant byte first. -/
def leBytes (v n : Nat) : List Byte :=
  (List.range n).map fun i => BitVec.ofNat 8 (v >>> (8 * i))

/-- `be_bytes(v, n)` (R38): most significant byte first. -/
def beBytes (v n : Nat) : List Byte :=
  (List.range n).map fun i => BitVec.ofNat 8 (v >>> (8 * (n - 1 - i)))

/-- Four consecutive bytes to a word, in the unit's byte order (R39). -/
def wordOfBytes : UnitId → Byte → Byte → Byte → Byte → Word
  | .md5 => le32
  | .sha1 => be32

/-- An unsigned value to n bytes, in the unit's byte order (R40, R41). -/
def bytesOfNat : UnitId → Nat → Nat → List Byte
  | .md5 => leBytes
  | .sha1 => beBytes

/-- Block decode (R39): word k is made of the bytes `blk[4k .. 4k+4)`, k = 0 .. 15. -/
def blockWords (u : UnitId) (blk : Block) : List Word :=
  (List.range 16).map fun k =>
    wordOfBytes u (blk.toList.getD (4 * k) 0) (blk.toList.getD (4 * k + 1) 0)
      (blk.toList.getD (4 * k + 2) 0) (blk.toList.getD (4 * k + 3) 0)

/-- The first n elements of a list as a vector. Where the list is shorter than n the rest is `fill`; every use of the
model passes a list of at least n elements (log entry 8). -/
def vectorOfList {α : Type} (n : Nat) (l : List α) (fill : α) : Vector α n :=
  ⟨(l.takeD n fill).toArray, by simp⟩

/-- The 64-byte slice `s[64*j .. 64*j + 64)` of a byte sequence. -/
def blockAt (s : List Byte) (j : Nat) : Block := vectorOfList 64 (s.drop (64 * j)) 0

/-- The complete blocks of a byte sequence, in stream order: `s[64*j .. 64*j + 64)` for j = 0 .. (|s| div 64) - 1
(spec/40_context_commands.md R72). -/
def blocksOf (s : List Byte) : List Block := (List.range (s.length / 64)).map (blockAt s)

/-- What is left of a byte sequence after its complete blocks, 0 to 63 bytes (R72). -/
def tailOf (s : List Byte) : List Byte := s.drop (64 * (s.length / 64))

/-- `BUF[idx .. idx + |data|) <- data`; the other bytes of the store are not written (R72). -/
def storeAt (buf : Vector Byte 64) (idx : Nat) (data : List Byte) : Vector Byte 64 :=
  vectorOfList 64 (buf.toList.take idx ++ data ++ buf.toList.drop (idx + data.length)) 0

/-- `PLEN(u) = (LEN[u] >> 3) mod 64` (R21). -/
def HashUnit.plen {u : UnitId} (c : HashUnit u) : Nat := (c.len.toNat >>> 3) % 64

/-- `PBUF(u) = BUF[u][0 .. PLEN(u))`, the pending buffer (R20). -/
def HashUnit.pbuf {u : UnitId} (c : HashUnit u) : List Byte := c.buf.toList.take c.plen

/-- `LEN_LO(u)` (R18). -/
def HashUnit.lenLo {u : UnitId} (c : HashUnit u) : BitVec 32 := c.len.extractLsb' 0 32

/-- `LEN_HI(u)` (R18). -/
def HashUnit.lenHi {u : UnitId} (c : HashUnit u) : BitVec 32 := c.len.extractLsb' 32 32

/-- Byte i of the store is residue: it has no specified value (R22). -/
def HashUnit.isResidue {u : UnitId} (c : HashUnit u) (i : Nat) : Bool :=
  (c.life = .active ∨ c.life = .corrupted) ∧ c.plen ≤ i

end Sys2Proof.Machine
end

