-- ==== Sys2Proof/Machine/Flags.lean ====
section
/-! DEFINITION. The lifecycle flag and the tests that decide a command's outcome: the encodings of LIFE and STATUS
(spec/10_state.md R23, spec/30_encoding.md R62), `check` (spec/40_context_commands.md R69) and the overflow test (R75).
There are no condition codes (spec/10_state.md R27). -/

namespace Sys2Proof.Machine

/-- The 2-bit encoding of `LIFE[u]` (R23). -/
def Life.code : Life → BitVec 2
  | .absent => 0b00#2
  | .active => 0b01#2
  | .finalized => 0b10#2
  | .corrupted => 0b11#2

/-- The status number of an error (R62). -/
def CommandError.code : CommandError → BitVec 8
  | .nullInput => 1
  | .stateError => 2
  | .overflow => 3
  | .illegalCommand => 4

/-- The 8-bit `STATUS` of a response (R62). -/
def Status.code : Status → BitVec 8
  | .ok => 0
  | .error e => e.code

/-- `check(u, p)` (R69): the error that UPDATE or FINAL raises before it reads or writes anything else, if any. -/
def check (life : Life) (p : Bool) : Option CommandError :=
  if life = .absent then some .nullInput
  else if p = false then some .nullInput
  else if life = .finalized ∨ life = .corrupted then some .stateError
  else none

/-- The overflow test of R75, on naturals: `LEN[u] + 8*n >= 2^64`. -/
def wouldOverflow (len : Count) (n : Nat) : Bool := decide (2 ^ 64 ≤ len.toNat + 8 * n)

end Sys2Proof.Machine
end

