-- ==== Sys2Proof/Machine/Md5.lean ====
section
/-! DEFINITION. The Block Compressor of U0, `compress_0` (spec/41_compress_md5.md). Its constants are those the spec
supplies from general knowledge (spec/93_implementation_defined.md G1 to G6). -/

namespace Sys2Proof.Machine

/-- The working registers a, b, c, d (spec/10_state.md R15): locals of one invocation. -/
structure Md5Regs where
  a : Word
  b : Word
  c : Word
  d : Word
deriving DecidableEq, Repr

/-- F (R88). -/
def md5F (x y z : Word) : Word := (x &&& y) ||| (~~~x &&& z)

/-- G (R89). -/
def md5G (x y z : Word) : Word := (x &&& z) ||| (y &&& ~~~z)

/-- H (R90). -/
def md5H (x y z : Word) : Word := x ^^^ y ^^^ z

/-- I (R91). -/
def md5I (x y z : Word) : Word := y ^^^ (x ||| ~~~z)

/-- The boolean function of step i: F, G, H, I for the four groups of 16 steps (R95). -/
def md5Fn (i : Nat) : Word → Word → Word → Word :=
  if i < 16 then md5F else if i < 32 then md5G else if i < 48 then md5H else md5I

/-- The word index k(i) (R92). -/
def md5K (i : Nat) : Nat :=
  if i < 16 then i
  else if i < 32 then (5 * i + 1) % 16
  else if i < 48 then (3 * i + 5) % 16
  else (7 * i) % 16

/-- The rotation amounts, four for each group of 16 steps (R93). -/
def md5Rotations : List (List Nat) :=
  [[7, 12, 17, 22], [5, 9, 14, 20], [4, 11, 16, 23], [6, 10, 15, 21]]

/-- The rotation amount s(i): entry `i mod 4` of the list of group `i div 16` (R93). -/
def md5S (i : Nat) : Nat := (md5Rotations.getD (i / 16) []).getD (i % 4) 0

/-- T[0] to T[15] (R94). -/
def md5T0 : List Word :=
  [0xD76AA478, 0xE8C7B756, 0x242070DB, 0xC1BDCEEE, 0xF57C0FAF, 0x4787C62A, 0xA8304613, 0xFD469501,
   0x698098D8, 0x8B44F7AF, 0xFFFF5BB1, 0x895CD7BE, 0x6B901122, 0xFD987193, 0xA679438E, 0x49B40821]

/-- T[16] to T[31] (R94). -/
def md5T1 : List Word :=
  [0xF61E2562, 0xC040B340, 0x265E5A51, 0xE9B6C7AA, 0xD62F105D, 0x02441453, 0xD8A1E681, 0xE7D3FBC8,
   0x21E1CDE6, 0xC33707D6, 0xF4D50D87, 0x455A14ED, 0xA9E3E905, 0xFCEFA3F8, 0x676F02D9, 0x8D2A4C8A]

/-- T[32] to T[47] (R94). -/
def md5T2 : List Word :=
  [0xFFFA3942, 0x8771F681, 0x6D9D6122, 0xFDE5380C, 0xA4BEEA44, 0x4BDECFA9, 0xF6BB4B60, 0xBEBFBC70,
   0x289B7EC6, 0xEAA127FA, 0xD4EF3085, 0x04881D05, 0xD9D4D039, 0xE6DB99E5, 0x1FA27CF8, 0xC4AC5665]

/-- T[48] to T[63] (R94). -/
def md5T3 : List Word :=
  [0xF4292244, 0x432AFF97, 0xAB9423A7, 0xFC93A039, 0x655B59C3, 0x8F0CCC92, 0xFFEFF47D, 0x85845DD1,
   0x6FA87E4F, 0xFE2CE6E0, 0xA3014314, 0x4E0811A1, 0xF7537E82, 0xBD3AF235, 0x2AD7D2BB, 0xEB86D391]

/-- The additive constants T[0] to T[63] (R94), as literals. -/
def md5T : List Word := md5T0 ++ md5T1 ++ md5T2 ++ md5T3

/-- Step i (R95); `x` is the schedule X[0..15]. -/
def md5Step (x : List Word) (r : Md5Regs) (i : Nat) : Md5Regs :=
  let t := r.a + md5Fn i r.b r.c r.d + x.getD (md5K i) 0 + md5T.getD i 0
  ⟨r.d, r.b + rotl32 t (md5S i), r.b, r.c⟩

/-- The working registers after the first n steps (R85, R95). -/
def md5Steps (x : List Word) (r : Md5Regs) (n : Nat) : Md5Regs := (List.range n).foldl (md5Step x) r

/-- Load (R87). -/
def md5Load (h : Vector Word 4) : Md5Regs := ⟨h[0], h[1], h[2], h[3]⟩

/-- Feed-forward (R96). -/
def md5FeedForward (h : Vector Word 4) (r : Md5Regs) : Vector Word 4 :=
  #v[h[0] + r.a, h[1] + r.b, h[2] + r.c, h[3] + r.d]

/-- `compress_0(Hin, blk)` (R85): decode, load, 64 steps, feed-forward. -/
def md5Compress (h : Vector Word 4) (blk : Block) : Vector Word 4 :=
  md5FeedForward h (md5Steps (blockWords .md5 blk) (md5Load h) 64)

/-- The initial accumulator of U0 (spec/10_state.md R32). -/
def md5Iv : Vector Word 4 := #v[0x67452301, 0xEFCDAB89, 0x98BADCFE, 0x10325476]

end Sys2Proof.Machine
end

