-- ==== Sys2Proof/Machine/Sha1.lean ====
section
/-! DEFINITION. The Block Compressor of U1, `compress_1` (spec/42_compress_sha1.md). The schedule recurrence is the
source's; the functions, constants and rotation amounts 5 and 30 are those the spec supplies from general knowledge
(spec/93_implementation_defined.md G1, G7 to G9). -/

namespace Sys2Proof.Machine

/-- The working registers a, b, c, d, e (spec/10_state.md R15): locals of one invocation. -/
structure Sha1Regs where
  a : Word
  b : Word
  c : Word
  d : Word
  e : Word
deriving DecidableEq, Repr

/-- Ch (R102). -/
def sha1Ch (x y z : Word) : Word := (x &&& y) ||| (~~~x &&& z)

/-- Parity (R103). -/
def sha1Parity (x y z : Word) : Word := x ^^^ y ^^^ z

/-- Maj (R104). -/
def sha1Maj (x y z : Word) : Word := (x &&& y) ||| (x &&& z) ||| (y &&& z)

/-- The boolean function of round t (R105). -/
def sha1Fn (t : Nat) : Word → Word → Word → Word :=
  if t < 20 then sha1Ch else if t < 40 then sha1Parity else if t < 60 then sha1Maj else sha1Parity

/-- The constant K_t (R105). -/
def sha1K (t : Nat) : Word :=
  if t < 20 then 0x5A827999 else if t < 40 then 0x6ED9EBA1 else if t < 60 then 0x8F1BBCDC else 0xCA62C1D6

/-- One step of the schedule expansion (R100): the word `W[t]`, t the number of words there are. -/
def sha1NextWord (w : List Word) : Word :=
  rotl32 (w.getD (w.length - 3) 0 ^^^ w.getD (w.length - 8) 0 ^^^ w.getD (w.length - 14) 0 ^^^
    w.getD (w.length - 16) 0) 1

/-- The schedule with n more words (R100). -/
def sha1Expand (w : List Word) : Nat → List Word
  | 0 => w
  | n + 1 => sha1Expand (w ++ [sha1NextWord w]) n

/-- The schedule `W[0..79]`: sixteen decoded words (R99) and 64 expanded ones (R100). -/
def sha1Schedule (blk : Block) : List Word := sha1Expand (blockWords .sha1 blk) 64

/-- Round t (R106); `w` is the schedule. -/
def sha1Round (w : List Word) (r : Sha1Regs) (t : Nat) : Sha1Regs :=
  ⟨rotl32 r.a 5 + sha1Fn t r.b r.c r.d + r.e + sha1K t + w.getD t 0, r.a, rotl32 r.b 30, r.c, r.d⟩

/-- The working registers after the first n rounds (R98, R106). -/
def sha1Rounds (w : List Word) (r : Sha1Regs) (n : Nat) : Sha1Regs := (List.range n).foldl (sha1Round w) r

/-- Load (R101). -/
def sha1Load (h : Vector Word 5) : Sha1Regs := ⟨h[0], h[1], h[2], h[3], h[4]⟩

/-- Feed-forward (R107). -/
def sha1FeedForward (h : Vector Word 5) (r : Sha1Regs) : Vector Word 5 :=
  #v[h[0] + r.a, h[1] + r.b, h[2] + r.c, h[3] + r.d, h[4] + r.e]

/-- `compress_1(Hin, blk)` (R98): decode, expand, load, 80 rounds, feed-forward. -/
def sha1Compress (h : Vector Word 5) (blk : Block) : Vector Word 5 :=
  sha1FeedForward h (sha1Rounds (sha1Schedule blk) (sha1Load h) 80)

/-- The initial accumulator of U1 (spec/10_state.md R32). -/
def sha1Iv : Vector Word 5 := #v[0x67452301, 0xEFCDAB89, 0x98BADCFE, 0x10325476, 0xC3D2E1F0]

end Sys2Proof.Machine
end

