-- ==== Sys2Proof/Machine/Ops.lean ====
section
/-! DEFINITION. The shared operations: the accessors of a unit, responding and raising an error
(spec/60_exceptions.md R118), the procedures `absorb` (spec/40_context_commands.md R72), `padfin`, `serialize` and
`wipe` (spec/43_padding_finalizer.md R113 to R115), and the three commands once for both units. -/

namespace Sys2Proof.Machine

/-- Unit u of the machine. -/
def State.unit (s : State) : (u : UnitId) → HashUnit u
  | .md5 => s.u0
  | .sha1 => s.u1

/-- The machine with unit u replaced. -/
def State.setUnit (s : State) : (u : UnitId) → HashUnit u → State
  | .md5, c => { s with u0 := c }
  | .sha1, c => { s with u1 := c }

/-- Return the one response of a command (spec/30_encoding.md R61). -/
def State.respond (s : State) (r : Response) : State := { s with responses := s.responses ++ [r] }

/-- The events of the compressor invocations a command made (spec/30_encoding.md R63). -/
def State.emit (s : State) (u : UnitId) (blks : List Block) : State :=
  { s with trace := s.trace ++ blks.map (CompressEvent.mk u) }

/-- Raise an error, the one shared operation (spec/60_exceptions.md R118): the command stops, its response carries the
error's status, `NCOMP = 0` and no digest; nothing is saved and control goes nowhere (R124). -/
def raise (e : CommandError) (s : State) : State := s.respond ⟨.error e, 0, none⟩

/-- The compressor of unit u. -/
def compress : (u : UnitId) → Vector Word (NW u) → Block → Vector Word (NW u)
  | .md5 => md5Compress
  | .sha1 => sha1Compress

/-- The initial accumulator of unit u (spec/10_state.md R32). -/
def initialH : (u : UnitId) → Vector Word (NW u)
  | .md5 => md5Iv
  | .sha1 => sha1Iv

/-- `absorb(u, data)` (spec/40_context_commands.md R72): the unit after it, and the blocks compressed, in order. -/
def absorb {u : UnitId} (c : HashUnit u) (data : List Byte) : HashUnit u × List Block :=
  let len := c.len + BitVec.ofNat 64 (8 * data.length)
  if c.plen + data.length < 64 then
    ({ c with buf := storeAt c.buf c.plen data, len := len }, [])
  else
    let stream := c.pbuf ++ data
    let blks := blocksOf stream
    ({ c with h := blks.foldl (compress u) c.h, buf := storeAt c.buf 0 (tailOf stream), len := len }, blks)

/-- The marker byte (spec/43_padding_finalizer.md R110). -/
def marker : Byte := 0x80

/-- The number of zero bytes after the marker, `z = (55 - idx) mod 64` in 0 .. 63, for idx ≤ 63
(spec/43_padding_finalizer.md R109). -/
def padZeros (idx : Nat) : Nat := (64 + 55 - idx) % 64

/-- The padded tail of R113: pending bytes, marker, zero bytes, and the length field in the unit's byte order (R112). -/
def padTail {u : UnitId} (c : HashUnit u) : List Byte :=
  c.pbuf ++ [marker] ++ List.replicate (padZeros c.plen) 0 ++ bytesOfNat u c.len.toNat 8

/-- `padfin(u)` (R113): the unit with the padded tail compressed into `H[u]`, and the blocks compressed, in order. -/
def padfin {u : UnitId} (c : HashUnit u) : HashUnit u × List Block :=
  let blks := blocksOf (padTail c)
  ({ c with h := blks.foldl (compress u) c.h }, blks)

/-- `serialize(u)` (R114): the accumulator words, word 0 first, each in the unit's byte order. -/
def serialize (u : UnitId) (h : Vector Word (NW u)) : List Byte :=
  h.toList.flatMap fun w => bytesOfNat u w.toNat 4

/-- `wipe(u)` (R115): accumulator, all 64 store bytes and counter to zero. -/
def wipe {u : UnitId} (c : HashUnit u) : HashUnit u :=
  { c with h := Vector.replicate (NW u) 0, len := 0, buf := Vector.replicate 64 0 }

/-- INIT to unit u (spec/40_context_commands.md R70, R71): accepted in every lifecycle state; `BUF[u]` and `DOUT[u]` are
not written. -/
def initUnit (u : UnitId) (s : State) : State :=
  (s.setUnit u { s.unit u with h := initialH u, len := 0, life := .active }).respond ⟨.ok, 0, none⟩

/-- UPDATE to unit u (R73, R74): check, overflow test, absorb. -/
def updateUnit (u : UnitId) (operand : Option (List Byte)) (s : State) : State :=
  match check (s.unit u).life operand.isSome with
  | some e => raise e s
  | none =>
    let data := operand.getD []
    if wouldOverflow (s.unit u).len data.length then
      raise .overflow (s.setUnit u { s.unit u with life := .corrupted })
    else
      let r := absorb (s.unit u) data
      ((s.setUnit u r.1).emit u r.2).respond ⟨.ok, BitVec.ofNat 64 r.2.length, none⟩

/-- FINAL to unit u (R76, R77), in the order of spec/43_padding_finalizer.md R117: check, pad and compress, serialise,
deliver, wipe, set Finalized, respond. -/
def finalUnit (u : UnitId) (sink : Bool) (s : State) : State :=
  match check (s.unit u).life sink with
  | some e => raise e s
  | none =>
    let r := padfin (s.unit u)
    let digest := serialize u r.1.h
    let c := wipe { r.1 with dout := vectorOfList (DL u) digest 0 }
    ((s.setUnit u { c with life := .finalized }).emit u r.2).respond
      ⟨.ok, BitVec.ofNat 64 r.2.length, some digest⟩

/-- The reset event (spec/70_reset_and_hazards.md R135, R136): both units as after reset; no response. Log entry 7. -/
def resetUnits (s : State) : State :=
  { s with u0 := HashUnit.reset .md5, u1 := HashUnit.reset .sha1 }

end Sys2Proof.Machine
end

