-- ==== Sys2Proof/Machine/Final.lean ====
section
/-! DEFINITION. The meanings of FINAL.MD5 and FINAL.SHA1 (spec/40_context_commands.md R76, R77). -/

namespace Sys2Proof.Machine

/-- FINAL.MD5 (R76). -/
def execFinalMd5 (sink : Bool) (s : State) : Host.Outcome State Fault Refusal :=
  .next (finalUnit .md5 sink s)

/-- FINAL.SHA1 (R77). -/
def execFinalSha1 (sink : Bool) (s : State) : Host.Outcome State Fault Refusal :=
  .next (finalUnit .sha1 sink s)

end Sys2Proof.Machine
end

