-- ==== Sys2Proof/Machine/Init.lean ====
section
/-! DEFINITION. The meanings of INIT.MD5 and INIT.SHA1 (spec/40_context_commands.md R70, R71). -/

namespace Sys2Proof.Machine

/-- INIT.MD5 (R70). -/
def execInitMd5 (s : State) : Host.Outcome State Fault Refusal := .next (initUnit .md5 s)

/-- INIT.SHA1 (R71). -/
def execInitSha1 (s : State) : Host.Outcome State Fault Refusal := .next (initUnit .sha1 s)

end Sys2Proof.Machine
end

