-- ==== Sys2Proof/Machine/Update.lean ====
section
/-! DEFINITION. The meanings of UPDATE.MD5 and UPDATE.SHA1 (spec/40_context_commands.md R73, R74). -/

namespace Sys2Proof.Machine

/-- UPDATE.MD5 (R73). -/
def execUpdateMd5 (operand : Option (List Byte)) (s : State) : Host.Outcome State Fault Refusal :=
  .next (updateUnit .md5 operand s)

/-- UPDATE.SHA1 (R74). -/
def execUpdateSha1 (operand : Option (List Byte)) (s : State) : Host.Outcome State Fault Refusal :=
  .next (updateUnit .sha1 operand s)

end Sys2Proof.Machine
end

