-- ==== Sys2Proof/Machine/Dispatch.lean ====
section
/-! DEFINITION. One arm per command (spec/30_encoding.md R55). -/

namespace Sys2Proof.Machine

def exec (i : Instr) (s : State) : Host.Outcome State Fault Refusal :=
  match i with
  | .initMd5 => Sys2Proof.Machine.execInitMd5 s
  | .initSha1 => Sys2Proof.Machine.execInitSha1 s
  | .updateMd5 operand => Sys2Proof.Machine.execUpdateMd5 operand s
  | .updateSha1 operand => Sys2Proof.Machine.execUpdateSha1 operand s
  | .finalMd5 sink => Sys2Proof.Machine.execFinalMd5 sink s
  | .finalSha1 sink => Sys2Proof.Machine.execFinalSha1 sink s

end Sys2Proof.Machine
end

