-- ==== Sys2Proof/Machine/Observe.lean ====
section
/-! DEFINITION. The read-only observation port (spec/10_state.md R28, spec/30_encoding.md R65). -/

namespace Sys2Proof.Machine

/-- `STATUS` (R28): bits 1:0 the lifecycle flag, bit 2 the unit, the rest 0. -/
def statusWord (u : UnitId) (life : Life) : BitVec 32 :=
  ((0#29 ++ (BitVec.ofBool u.bit ++ life.code : BitVec 3) : BitVec 32))

/-- The value a read of selector `sel` of a unit returns (R28); `free` is the byte a residue byte reads as (R22). -/
def observeUnit {u : UnitId} (c : HashUnit u) (free : Byte) (sel : BitVec 8) : BitVec 32 :=
  let n := sel.toNat
  if n = 0x00 then statusWord u c.life
  else if n = 0x01 then c.lenLo
  else if n = 0x02 then c.lenHi
  else if 0x04 ≤ n ∧ n < 0x04 + NW u then c.h.toList.getD (n - 0x04) 0
  else if 0x40 ≤ n ∧ n < 0x40 + 64 then
    ((if c.isResidue (n - 0x40) then free else c.buf.toList.getD (n - 0x40) 0).setWidth 32)
  else if 0x80 ≤ n ∧ n < 0x80 + DL u then (c.dout.toList.getD (n - 0x80) 0).setWidth 32
  else 0

/-- The value an observation read returns in a state. -/
def observe (s : State) (u : UnitId) (sel : BitVec 8) : BitVec 32 :=
  observeUnit (s.unit u) (Config.freeByte s.freeIndex) sel

/-- An observation read: its result goes to the host; nothing of the units changes (spec/20_memory.md R51). -/
def observeStep (u : UnitId) (sel : BitVec 8) (s : State) : State :=
  { s with reads := s.reads ++ [observe s u sel], freeIndex := s.freeIndex + 1 }

end Sys2Proof.Machine
end

