-- ==== Sys2Proof/Machine/Step.lean ====
section
/-! DEFINITION. One step: the HCE takes the oldest transaction at its ports and carries it out whole
(spec/20_memory.md R45, R47). There is no program counter and no fetch (spec/10_state.md R26). -/

namespace Sys2Proof.Machine

/-- One step. With nothing at the ports the HCE is idle and keeps all its state (spec/60_exceptions.md R133); an illegal
command code answers IllegalCommand and changes no unit (R121). -/
def step (s : State) : Host.Outcome State Fault Refusal :=
  match s.inbox with
  | [] => .next s
  | .reset :: rest => .next (resetUnits { s with inbox := rest })
  | .observe u sel :: rest => .next (observeStep u sel { s with inbox := rest })
  | .command f :: rest =>
    match decode f with
    | .ok i => exec i { s with inbox := rest }
    | .error _ => .next (raise .illegalCommand { s with inbox := rest })

/-- `s` with the command of code `w` (no operand bytes) presented as the next transaction. Log entries 1 and 10. -/
def State.withFetchWord (s : State) (_nbits w : Nat) : State :=
  { s with inbox := .command ⟨BitVec.ofNat 8 w, []⟩ :: s.inbox }

end Sys2Proof.Machine
end

