-- ==== Sys2Proof/Safety.lean ====
section
/-! DEFINITION. The terms the statements use: the hash of a whole message as one function, what a unit's context stands
for, the invariants of the machine, running a list of commands, and what a command leaves alone. -/

namespace Sys2Proof.Machine

/-- The padded message: message, marker, zero bytes, length field (spec/43_padding_finalizer.md R109 to R112). -/
def padMessage (u : UnitId) (m : List Byte) : List Byte :=
  m ++ [marker] ++ List.replicate (padZeros (m.length % 64)) 0 ++ bytesOfNat u (8 * m.length) 8

/-- `hash(M)` of unit u, with no buffering and no state: every block of the padded message compressed in order from the
initial accumulator, then serialised. -/
def hashMessage (u : UnitId) (m : List Byte) : List Byte :=
  serialize u ((blocksOf (padMessage u m)).foldl (compress u) (initialH u))

/-- The context of a unit stands for the message `m` (spec/10_state.md R34, row "Active after UPDATEs"): the chaining
value after all full blocks, 8 times the bytes accepted, and the last `PLEN` bytes accepted. -/
structure HashUnit.Holds {u : UnitId} (c : HashUnit u) (m : List Byte) : Prop where
  active : c.life = .active
  chain  : c.h = (blocksOf m).foldl (compress u) (initialH u)
  count  : c.len.toNat = 8 * m.length
  pending : c.pbuf = tailOf m

/-- The invariant of one unit (spec/10_state.md R19, R33, R34): the count is a multiple of 8; an Absent unit is as after
reset; a Finalized unit is wiped. -/
structure HashUnit.Inv {u : UnitId} (c : HashUnit u) : Prop where
  count_bytes : c.len.toNat % 8 = 0
  absent_is_reset : c.life = .absent → c = HashUnit.reset u
  finalized_is_wiped : c.life = .finalized →
    c.h = Vector.replicate (NW u) 0 ∧ c.len = 0 ∧ c.buf = Vector.replicate 64 0

/-- A response has the form R61 and R118 give it: an error carries `NCOMP = 0` and no digest, and a digest has 16 or 20
bytes. -/
structure Response.WellFormed (r : Response) : Prop where
  error_is_bare : r.status ≠ .ok → r.ncomp = 0 ∧ r.digest = none
  digest_length : ∀ d, r.digest = some d → d.length = 16 ∨ d.length = 20

/-- The invariant of the machine: both units' invariants, and every response returned so far is well-formed. -/
structure State.Inv (s : State) : Prop where
  units : ∀ u, (s.unit u).Inv
  answers : ∀ r ∈ s.responses, r.WellFormed

/-- A list of commands, one after another, stopping at the first that does not answer a next state. -/
def execAll : List Instr → State → Host.Outcome State Fault Refusal
  | [], s => .next s
  | i :: is, s =>
    match exec i s with
    | .next t => execAll is t
    | .fault r => .fault r
    | .refused r => .refused r

/-- What a command to unit u leaves alone outside that unit, the response port and the trace: the other unit, the
transactions not yet taken, the observation results, the free-value counter. -/
structure SameOutside (u : UnitId) (s t : State) : Prop where
  other : ∀ v, v ≠ u → t.unit v = s.unit v
  inbox : t.inbox = s.inbox
  reads : t.reads = s.reads
  freeIndex : t.freeIndex = s.freeIndex

/-- Two contexts of a unit that differ at most in residue bytes of the store (spec/10_state.md R22), apart from the
output register. -/
structure HashUnit.AgreeOnContext {u : UnitId} (c d : HashUnit u) : Prop where
  h : c.h = d.h
  len : c.len = d.len
  life : c.life = d.life
  pbuf : c.pbuf = d.pbuf

/-- The ten legal command codes (spec/30_encoding.md R55). -/
def legalCodes : List (BitVec 8) :=
  [0x01, 0x05, 0x02, 0x0A, 0x06, 0x0E, 0x03, 0x0B, 0x07, 0x0F]

end Sys2Proof.Machine
end

