-- ==== Sys2Proof/Certificates/Slice0/Obligations.lean ====
section
/-! DEFINITION. The statements for the provers. Each docstring names the rule of spec/ it formalises. No statement speaks
of the content of a residue byte (spec/70_reset_and_hazards.md R144) except as the free value an observation returns. -/

open Sys2Proof Sys2Proof.Machine

/-! ## Encoding -/

/-- The command codes written out in spec/30_encoding.md R55 decode to the commands R55 lists, whatever bytes accompany
them; only UPDATE with P = 1 takes the bytes. -/
def Obligations.DecodeOfWrittenCodes : Prop :=
  ∀ data : List Byte,
    decode ⟨0b00000001#8, data⟩ = .ok .initMd5 ∧
    decode ⟨0b00000101#8, data⟩ = .ok .initSha1 ∧
    decode ⟨0b00001010#8, data⟩ = .ok (.updateMd5 (some data)) ∧
    decode ⟨0b00000010#8, data⟩ = .ok (.updateMd5 none) ∧
    decode ⟨0b00001110#8, data⟩ = .ok (.updateSha1 (some data)) ∧
    decode ⟨0b00000110#8, data⟩ = .ok (.updateSha1 none) ∧
    decode ⟨0b00001011#8, data⟩ = .ok (.finalMd5 true) ∧
    decode ⟨0b00000011#8, data⟩ = .ok (.finalMd5 false) ∧
    decode ⟨0b00001111#8, data⟩ = .ok (.finalSha1 true) ∧
    decode ⟨0b00000111#8, data⟩ = .ok (.finalSha1 false)

/-- Exactly the ten codes of spec/30_encoding.md R55 are legal, and they are the codes with none of R57's faults. -/
def Obligations.LegalCodesAreTheTen : Prop :=
  ∀ f : Frame,
    ((∃ i, decode f = .ok i) ↔ f.cc ∈ legalCodes) ∧
    ((∃ e, decode f = .error e) ↔
      (ccRsv f.cc ≠ 0 ∨ ccOp f.cc = 0b00#2 ∨ (ccOp f.cc = 0b01#2 ∧ ccP f.cc = true)))

/-- Decoding the frame of a well-formed command gives the command back, every operand included. -/
def Obligations.DecodeEncode : Prop :=
  ∀ i : Instr, i.wf = true → (encode i).wf = true ∧ decode (encode i) = .ok i

/-- Every legal frame is the frame of the command it decodes to: no bit of the code is dropped, and the bytes that
accompany an UPDATE with P = 1 are its operand; the bytes that accompany any other command are ignored
(spec/30_encoding.md R56). -/
def Obligations.EncodeDecode : Prop :=
  ∀ (f : Frame) (i : Instr), decode f = .ok i →
    (encode i).cc = f.cc ∧
    (encode i).data = (if ccOp f.cc = 0b10#2 ∧ ccP f.cc = true then f.data else []) ∧
    (f.wf = true → i.wf = true)

/-! ## The step -/

/-- A step runs the decoded command: with a legal frame as the oldest transaction, the step is exec of the command on
the state without that transaction. That transactions wait in a list is the model's choice (log entry 1). -/
def Obligations.StepRunsDecodedCommand : Prop :=
  ∀ (s : State) (f : Frame) (rest : List Transaction) (i : Instr),
    s.inbox = .command f :: rest → decode f = .ok i →
    step s = exec i { s with inbox := rest }

/-- spec/60_exceptions.md R121: an illegal code answers IllegalCommand (4) and changes no state of either unit, which it
does not read. -/
def Obligations.IllegalCodeChangesNothing : Prop :=
  CommandError.illegalCommand.code = 4 ∧
  ∀ (s : State) (f : Frame) (rest : List Transaction),
    s.inbox = .command f :: rest →
    (ccRsv f.cc ≠ 0 ∨ ccOp f.cc = 0b00#2 ∨ (ccOp f.cc = 0b01#2 ∧ ccP f.cc = true)) →
    step s = .next { s with inbox := rest
                            responses := s.responses ++ [⟨.error .illegalCommand, 0, none⟩] }

/-- spec/60_exceptions.md R133: with nothing at the ports the HCE keeps all its state. That such a step answers the same
state is the model's choice (log entry 1). -/
def Obligations.IdleStepKeepsState : Prop :=
  ∀ s : State, s.inbox = [] → step s = .next s

/-- spec/70_reset_and_hazards.md R135: the reset event. That it leaves the port records alone is the model's choice
(log entry 7). -/
def Obligations.ResetEventClearsUnits : Prop :=
  ∀ (s : State) (rest : List Transaction), s.inbox = .reset :: rest →
    ∃ t, step s = .next t ∧ t.inbox = rest ∧ t.responses = s.responses ∧ t.reads = s.reads ∧ t.trace = s.trace ∧
      t.freeIndex = s.freeIndex ∧
      ∀ u, (t.unit u).life = .absent ∧ (t.unit u).h.toList = List.replicate (NW u) 0 ∧ (t.unit u).len = 0 ∧
        (t.unit u).buf.toList = List.replicate 64 0 ∧ (t.unit u).dout.toList = List.replicate (DL u) 0

/-- spec/10_state.md R33: the values after reset. -/
def Obligations.ResetValues : Prop :=
  ∀ u, (State.reset.unit u).life = .absent ∧ (State.reset.unit u).h.toList = List.replicate (NW u) 0x00000000 ∧
    (State.reset.unit u).len = 0 ∧ (State.reset.unit u).buf.toList = List.replicate 64 0x00 ∧
    (State.reset.unit u).dout.toList = List.replicate (DL u) 0x00

/-- The HCE never halts (spec/30_encoding.md R61): every step answers a next state, takes the oldest transaction, and
returns exactly one response if it was a command and none otherwise; responses already returned stay. That transactions
wait in a list and that a step with none waiting answers a next state is the model's choice (log entry 1), and so is that
a reset event keeps the responses and the waiting transactions (log entry 7). -/
def Obligations.EveryStepAnswersNext : Prop :=
  ∀ s : State, ∃ t new, step s = .next t ∧ t.inbox = s.inbox.tail ∧ t.responses = s.responses ++ new ∧
    new.length = (match s.inbox with
                  | .command _ :: _ => 1
                  | _ => 0)

/-- The commands queued at the port run one after another in the order they stand (spec/20_memory.md R47). That
transactions wait in a list is the model's choice (log entry 1). -/
def Obligations.QueuedCommandsRunInOrder : Prop :=
  ∀ (is : List Instr) (s : State) (rest : List Transaction),
    (∀ i ∈ is, i.wf = true) →
    s.inbox = is.map (fun i => Transaction.command (encode i)) ++ rest →
    core.run is.length s = execAll is { s with inbox := rest }

/-- spec/30_encoding.md R62: the status numbers. -/
def Obligations.StatusNumbers : Prop :=
  Status.ok.code = 0 ∧ (Status.error .nullInput).code = 1 ∧ (Status.error .stateError).code = 2 ∧
    (Status.error .overflow).code = 3 ∧ (Status.error .illegalCommand).code = 4

/-! ## INIT -/

/-- INIT.MD5 and INIT.SHA1 (spec/40_context_commands.md R70, R71; constants R32): accepted in every state; the frame is
everything but H, LEN and LIFE of the addressed unit and the response. -/
def Obligations.InitStartsContext : Prop :=
  ∀ (u : UnitId) (s : State), ∃ t, exec (.init u) s = .next t ∧
    (t.unit u).h.toList = (match u with
      | .md5 => [0x67452301#32, 0xEFCDAB89#32, 0x98BADCFE#32, 0x10325476#32]
      | .sha1 => [0x67452301#32, 0xEFCDAB89#32, 0x98BADCFE#32, 0x10325476#32, 0xC3D2E1F0#32]) ∧
    (t.unit u).len = 0 ∧ (t.unit u).life = .active ∧ (t.unit u).pbuf = [] ∧
    (t.unit u).buf = (s.unit u).buf ∧ (t.unit u).dout = (s.unit u).dout ∧
    t.responses = s.responses ++ [⟨.ok, 0, none⟩] ∧ t.trace = s.trace ∧ SameOutside u s t

/-! ## UPDATE -/

/-- The blocks of a byte stream and its tail are the stream cut every 64 bytes, nothing lost and nothing added
(the cut of `absorb`, spec/40_context_commands.md R72). -/
def Obligations.BlocksPartitionStream : Prop :=
  ∀ stream : List Byte,
    (blocksOf stream).flatMap (fun b => b.toList) ++ tailOf stream = stream ∧
    (blocksOf stream).length = stream.length / 64 ∧ (tailOf stream).length = stream.length % 64

/-- UPDATE.MD5 and UPDATE.SHA1 complete when the unit is Active, the operand is present and the count does not overflow
(spec/40_context_commands.md R72, R73, R74, R75), with the result and the frame. -/
def Obligations.UpdateAbsorbs : Prop :=
  ∀ (u : UnitId) (s : State) (data : List Byte),
    (s.unit u).life = .active → (s.unit u).len.toNat + 8 * data.length < 2 ^ 64 →
    ∃ t, exec (.update u (some data)) s = .next t ∧
      (t.unit u).h = (blocksOf ((s.unit u).pbuf ++ data)).foldl (compress u) (s.unit u).h ∧
      (t.unit u).pbuf = tailOf ((s.unit u).pbuf ++ data) ∧
      (t.unit u).len.toNat = (s.unit u).len.toNat + 8 * data.length ∧
      (t.unit u).life = .active ∧ (t.unit u).dout = (s.unit u).dout ∧
      t.responses = s.responses ++ [⟨.ok, BitVec.ofNat 64 (((s.unit u).plen + data.length) / 64), none⟩] ∧
      t.trace = s.trace ++ (blocksOf ((s.unit u).pbuf ++ data)).map (CompressEvent.mk u) ∧
      SameOutside u s t

/-- spec/40_context_commands.md R83: an UPDATE with the empty sequence to an Active unit changes no state; it only
returns OK. -/
def Obligations.EmptyUpdateChangesNothing : Prop :=
  ∀ (u : UnitId) (s : State), (s.unit u).life = .active →
    exec (.update u (some [])) s = .next { s with responses := s.responses ++ [⟨.ok, 0, none⟩] }

/-- The overflow test is exact over the whole counter and comes before anything is absorbed: LIFE becomes Corrupted and
nothing else changes (spec/40_context_commands.md R75, spec/60_exceptions.md R122). An operand of 2^61 bytes or more
always overflows. -/
def Obligations.OverflowCorruptsOnlyLife : Prop :=
  ∀ (u : UnitId) (s : State) (data : List Byte),
    (s.unit u).life = .active →
    (2 ^ 64 ≤ (s.unit u).len.toNat + 8 * data.length ∨ 2 ^ 61 ≤ data.length) →
    ∃ t, exec (.update u (some data)) s = .next t ∧
      t.unit u = { s.unit u with life := .corrupted } ∧
      t.responses = s.responses ++ [⟨.error .overflow, 0, none⟩] ∧ t.trace = s.trace ∧ SameOutside u s t

/-! ## Errors -/

/-- spec/60_exceptions.md R119: when NullInputError is returned, by which commands, and that it changes nothing. -/
def Obligations.NullInputErrorCauses : Prop :=
  CommandError.nullInput.code = 1 ∧
  ∀ (u : UnitId) (s : State),
    (∀ operand, exec (.update u operand) s =
        .next { s with responses := s.responses ++ [⟨.error .nullInput, 0, none⟩] } ↔
      ((s.unit u).life = .absent ∨ operand = none)) ∧
    (∀ sink, exec (.final u sink) s =
        .next { s with responses := s.responses ++ [⟨.error .nullInput, 0, none⟩] } ↔
      ((s.unit u).life = .absent ∨ sink = false)) ∧
    (∀ t, exec (.init u) s = .next t → t.responses ≠ s.responses ++ [⟨.error .nullInput, 0, none⟩])

/-- spec/60_exceptions.md R120: when StateError is returned, and that it changes nothing: LIFE and DOUT keep their values
and no digest is returned. -/
def Obligations.StateErrorCauses : Prop :=
  CommandError.stateError.code = 2 ∧
  ∀ (u : UnitId) (s : State),
    (∀ operand, exec (.update u operand) s =
        .next { s with responses := s.responses ++ [⟨.error .stateError, 0, none⟩] } ↔
      (((s.unit u).life = .finalized ∨ (s.unit u).life = .corrupted) ∧ operand ≠ none)) ∧
    (∀ sink, exec (.final u sink) s =
        .next { s with responses := s.responses ++ [⟨.error .stateError, 0, none⟩] } ↔
      (((s.unit u).life = .finalized ∨ (s.unit u).life = .corrupted) ∧ sink = true))

/-- spec/60_exceptions.md R123: exactly one status is reported for a command frame, the first cause in the order
IllegalCommand, NullInputError (context, then P), StateError, OverflowError. -/
def Obligations.ErrorPriority : Prop :=
  ∀ (s : State) (f : Frame) (rest : List Transaction), s.inbox = .command f :: rest →
    ∃ t r, step s = .next t ∧ t.responses = s.responses ++ [r] ∧
      r.status =
        (if f.cc ∉ legalCodes then .error .illegalCommand
         else if ccOp f.cc = 0b01#2 then .ok
         else if (s.unit (UnitId.ofBit (ccU f.cc))).life = .absent then .error .nullInput
         else if ccP f.cc = false then .error .nullInput
         else if (s.unit (UnitId.ofBit (ccU f.cc))).life = .finalized ∨
             (s.unit (UnitId.ofBit (ccU f.cc))).life = .corrupted then .error .stateError
         else if ccOp f.cc = 0b10#2 ∧
             2 ^ 64 ≤ (s.unit (UnitId.ofBit (ccU f.cc))).len.toNat + 8 * f.data.length then .error .overflow
         else .ok)

/-- What a failing command changes, complete (spec/60_exceptions.md R118, R125): its response carries `NCOMP = 0` and no
digest, and nothing else changes, but LIFE of the addressed unit becomes Corrupted on OverflowError. -/
def Obligations.FailingCommandHasNoOtherEffect : Prop :=
  ∀ (i : Instr) (s t : State) (r : Response) (e : CommandError),
    exec i s = .next t → t.responses = s.responses ++ [r] → r.status = .error e →
    r = ⟨.error e, 0, none⟩ ∧ t.trace = s.trace ∧ SameOutside i.unit s t ∧
    t.unit i.unit = { s.unit i.unit with life := if e = .overflow then .corrupted else (s.unit i.unit).life }

/-- spec/60_exceptions.md R126: Corrupted and Finalized are sticky. UPDATE and FINAL fail, return no digest and leave the
unit as it was; no step but INIT of the unit or reset changes it; and the UPDATE that made it Corrupted left H, LEN and
BUF. -/
def Obligations.CorruptedIsSticky : Prop :=
  (∀ (u : UnitId) (s : State) (i : Instr),
    ((s.unit u).life = .corrupted ∨ (s.unit u).life = .finalized) →
    ((∃ operand, i = .update u operand) ∨ (∃ sink, i = .final u sink)) →
    ∃ t, exec i s = .next t ∧ t.unit u = s.unit u ∧
      t.responses = s.responses ++ [⟨.error (if i.p = true then .stateError else .nullInput), 0, none⟩]) ∧
  (∀ (u : UnitId) (s t : State),
    ((s.unit u).life = .corrupted ∨ (s.unit u).life = .finalized) → step s = .next t →
    t.unit u = s.unit u ∨ (∃ rest, s.inbox = .reset :: rest) ∨
      (∃ f rest, s.inbox = .command f :: rest ∧ decode f = .ok (.init u))) ∧
  (∀ (u : UnitId) (s : State) (data : List Byte),
    (s.unit u).life = .active → 2 ^ 64 ≤ (s.unit u).len.toNat + 8 * data.length →
    ∃ t, exec (.update u (some data)) s = .next t ∧ (t.unit u).life = .corrupted ∧ (t.unit u).h = (s.unit u).h ∧
      (t.unit u).len = (s.unit u).len ∧ (t.unit u).buf = (s.unit u).buf)

/-! ## FINAL -/

/-- The padding (spec/43_padding_finalizer.md R109, R110, R111): pending bytes, the marker 0x80, z zero bytes with z as
the table of R109 gives it, and the 8-byte field; one block when the marker sits at 55 or below, two from 56 on. -/
def Obligations.PaddingShape : Prop :=
  ∀ (u : UnitId) (c : HashUnit u),
    padTail c = c.pbuf ++ 0x80#8 ::
      (List.replicate (if c.plen ≤ 55 then 55 - c.plen else 119 - c.plen) 0 ++
        (match u with
         | .md5 => leBytes c.len.toNat 8
         | .sha1 => beBytes c.len.toNat 8)) ∧
    (c.plen + 1 + padZeros c.plen) % 64 = 56 ∧
    (padTail c).length = (if c.plen ≤ 55 then 64 else 128)

/-- FINAL.MD5 and FINAL.SHA1 complete when the unit is Active and a digest sink is present
(spec/40_context_commands.md R76, R77; spec/43_padding_finalizer.md R113 to R117), with the result and the frame. -/
def Obligations.FinalDeliversDigest : Prop :=
  ∀ (u : UnitId) (s : State), (s.unit u).life = .active →
    ∃ t, exec (.final u true) s = .next t ∧
      (t.unit u).dout.toList =
        serialize u ((blocksOf (padTail (s.unit u))).foldl (compress u) (s.unit u).h) ∧
      (t.unit u).h.toList = List.replicate (NW u) 0 ∧ (t.unit u).len = 0 ∧
      (t.unit u).buf.toList = List.replicate 64 0 ∧ (t.unit u).life = .finalized ∧
      t.responses = s.responses ++
        [⟨.ok, if (s.unit u).plen ≤ 55 then 1 else 2, some (t.unit u).dout.toList⟩] ∧
      t.trace = s.trace ++ (blocksOf (padTail (s.unit u))).map (CompressEvent.mk u) ∧
      SameOutside u s t

/-- spec/43_padding_finalizer.md R114: the digest byte by byte, word 0 first, in the unit's byte order, of fixed
length. -/
def Obligations.SerializedDigestBytes : Prop :=
  (∀ h : Vector Word (NW .md5), (serialize .md5 h).length = 16 ∧
    ∀ j i, j < 4 → i < 4 →
      (serialize .md5 h)[4 * j + i]? = some (BitVec.ofNat 8 (((h.toList.getD j 0).toNat >>> (8 * i)) % 256))) ∧
  (∀ h : Vector Word (NW .sha1), (serialize .sha1 h).length = 20 ∧
    ∀ j i, j < 5 → i < 4 →
      (serialize .sha1 h)[4 * j + i]? = some (BitVec.ofNat 8 (((h.toList.getD j 0).toNat >>> (24 - 8 * i)) % 256)))

/-- spec/40_context_commands.md R80: the digest of a message has 16 or 20 bytes, whatever the message. -/
def Obligations.DigestHasFixedLength : Prop :=
  ∀ m : List Byte, (hashMessage .md5 m).length = 16 ∧ (hashMessage .sha1 m).length = 20

/-- After a successful FINAL every observation selector of the unit except STATUS and the DOUT bytes reads 0
(spec/43_padding_finalizer.md R115), and the DOUT bytes read the digest returned. -/
def Obligations.WipeIsObservable : Prop :=
  ∀ (u : UnitId) (s : State), (s.unit u).life = .active →
    ∃ t n digest, exec (.final u true) s = .next t ∧ t.responses = s.responses ++ [⟨.ok, n, some digest⟩] ∧
      (∀ sel : BitVec 8, sel ≠ 0 → ¬(0x80 ≤ sel.toNat ∧ sel.toNat < 0x80 + DL u) → observe t u sel = 0) ∧
      (∀ k, k < DL u → observe t u (BitVec.ofNat 8 (0x80 + k)) = (digest.getD k 0).setWidth 32)

/-- spec/20_memory.md R40: the length field as the last two schedule words of the block it ends. -/
def Obligations.LengthFieldWords : Prop :=
  ∀ (len : Count) (front : List Byte), front.length = 56 →
    (∀ blk : Block, blk.toList = front ++ bytesOfNat .md5 len.toNat 8 →
      (blockWords .md5 blk).getD 14 0 = len.extractLsb' 0 32 ∧
      (blockWords .md5 blk).getD 15 0 = len.extractLsb' 32 32) ∧
    (∀ blk : Block, blk.toList = front ++ bytesOfNat .sha1 len.toNat 8 →
      (blockWords .sha1 blk).getD 14 0 = len.extractLsb' 32 32 ∧
      (blockWords .sha1 blk).getD 15 0 = len.extractLsb' 0 32)

/-! ## The observation port -/

/-- An observation read between commands returns the selected value and changes no unit, no response and no trace
(spec/20_memory.md R51, spec/30_encoding.md R65). The counter of the free value is the model's own (log entry 4). -/
def Obligations.ObservationReadHasNoSideEffect : Prop :=
  ∀ (s : State) (u : UnitId) (sel : BitVec 8) (rest : List Transaction), s.inbox = .observe u sel :: rest →
    ∃ t, step s = .next t ∧ t.reads = s.reads ++ [observe s u sel] ∧ (∀ v, t.unit v = s.unit v) ∧
      t.inbox = rest ∧ t.responses = s.responses ∧ t.trace = s.trace

/-- The selectors of spec/10_state.md R28, one by one; a residue byte returns the free value, whatever it is (R22). -/
def Obligations.ObservationSelectors : Prop :=
  ∀ (s : State) (u : UnitId) (sel : BitVec 8),
    (sel = 0x00 → (observe s u sel).extractLsb' 0 2 = (s.unit u).life.code ∧
      (observe s u sel).getLsbD 2 = u.bit ∧ (observe s u sel).extractLsb' 3 29 = 0) ∧
    (sel = 0x01 → (observe s u sel).toNat = (s.unit u).len.toNat % 2 ^ 32) ∧
    (sel = 0x02 → (observe s u sel).toNat = (s.unit u).len.toNat / 2 ^ 32) ∧
    (∀ j, j < NW u → sel.toNat = 0x04 + j → (s.unit u).h.toList[j]? = some (observe s u sel)) ∧
    (∀ i, i < 64 → sel.toNat = 0x40 + i → (s.unit u).isResidue i = false →
      (s.unit u).buf.toList[i]? = some ((observe s u sel).setWidth 8) ∧ (observe s u sel).toNat < 256) ∧
    (∀ i, i < 64 → sel.toNat = 0x40 + i → (s.unit u).isResidue i = true →
      observe s u sel = (Config.freeByte s.freeIndex).setWidth 32) ∧
    (∀ i, i < DL u → sel.toNat = 0x80 + i →
      (s.unit u).dout.toList[i]? = some ((observe s u sel).setWidth 8) ∧ (observe s u sel).toNat < 256) ∧
    ((sel = 0x03 ∨ (0x04 + NW u ≤ sel.toNat ∧ sel.toNat < 0x40) ∨ 0x80 + DL u ≤ sel.toNat) → observe s u sel = 0)

/-- Two reads of a selector with no command between return the same value, unless it is a residue byte
(spec/20_memory.md R51). -/
def Obligations.RepeatedReadReturnsSameValue : Prop :=
  ∀ (s : State) (u : UnitId) (sel : BitVec 8) (rest : List Transaction),
    s.inbox = .observe u sel :: .observe u sel :: rest →
    (∀ i, i < 64 → sel.toNat = 0x40 + i → (s.unit u).isResidue i = false) →
    ∃ t v, core.run 2 s = .next t ∧ t.reads = s.reads ++ [v, v] ∧ (∀ w, t.unit w = s.unit w)

/-! ## The whole machine -/

/-- The invariant holds after reset. -/
def Obligations.ResetMeetsInvariant : Prop := State.reset.Inv

/-- Every step keeps the invariant: the counters are multiples of 8 (spec/10_state.md R19), an Absent unit is as after
reset and a Finalized one is wiped (R34), and every response has the form of spec/30_encoding.md R61. -/
def Obligations.StepKeepsInvariant : Prop :=
  ∀ s t : State, s.Inv → step s = .next t → t.Inv

/-- The lifecycle automaton (spec/10_state.md R24): the only transitions of LIFE that change it. -/
def Obligations.LifecycleTransitions : Prop :=
  ∀ (s t : State) (u : UnitId), step s = .next t → (t.unit u).life ≠ (s.unit u).life →
    ((∃ rest, s.inbox = .reset :: rest) ∧ (t.unit u).life = .absent) ∨
    ((∃ f rest, s.inbox = .command f :: rest ∧ decode f = .ok (.init u)) ∧ (t.unit u).life = .active) ∨
    ((∃ f rest, s.inbox = .command f :: rest ∧ decode f = .ok (.final u true)) ∧
      (s.unit u).life = .active ∧ (t.unit u).life = .finalized) ∨
    ((∃ f rest data, s.inbox = .command f :: rest ∧ decode f = .ok (.update u (some data)) ∧
        2 ^ 64 ≤ (s.unit u).len.toNat + 8 * data.length) ∧
      (s.unit u).life = .active ∧ (t.unit u).life = .corrupted)

/-- The digest output register is written only by a successful FINAL of its unit and by reset
(spec/10_state.md R25, spec/43_padding_finalizer.md R116). -/
def Obligations.DoutWrittenOnlyByFinalAndReset : Prop :=
  ∀ (s t : State) (u : UnitId), step s = .next t → (t.unit u).dout ≠ (s.unit u).dout →
    (∃ rest, s.inbox = .reset :: rest) ∨
    (∃ f rest n, s.inbox = .command f :: rest ∧ decode f = .ok (.final u true) ∧ (s.unit u).life = .active ∧
      t.responses = s.responses ++ [⟨.ok, n, some (t.unit u).dout.toList⟩])

/-- The bit count of a unit never decreases but by INIT, FINAL or reset (spec/10_state.md R17). -/
def Obligations.CountNeverDecreases : Prop :=
  ∀ (s t : State) (u : UnitId), step s = .next t → (t.unit u).len.toNat < (s.unit u).len.toNat →
    (∃ rest, s.inbox = .reset :: rest) ∨
    (∃ f rest, s.inbox = .command f :: rest ∧
      (decode f = .ok (.init u) ∨ (decode f = .ok (.final u true) ∧ (s.unit u).life = .active)))

/-- A command reads and writes its own unit alone, and of the store only the pending bytes (spec/20_memory.md R48,
spec/60_exceptions.md R134): two states whose addressed units agree but for residue bytes give the same response, the
same compressor invocations, and units that agree again; the other unit is untouched. -/
def Obligations.CommandDependsOnItsUnitOnly : Prop :=
  ∀ (i : Instr) (s s' : State), (s.unit i.unit).AgreeOnContext (s'.unit i.unit) →
    ∃ t t' r events, exec i s = .next t ∧ exec i s' = .next t' ∧
      t.responses = s.responses ++ [r] ∧ t'.responses = s'.responses ++ [r] ∧
      t.trace = s.trace ++ events ∧ t'.trace = s'.trace ++ events ∧
      (t.unit i.unit).AgreeOnContext (t'.unit i.unit) ∧
      SameOutside i.unit s t ∧ SameOutside i.unit s' t'

/-- Commands to different units commute in the state they leave in both units (spec/20_memory.md R48). -/
def Obligations.CommandsToDifferentUnitsCommute : Prop :=
  ∀ (i j : Instr) (s : State), i.unit ≠ j.unit →
    ∃ t t' r r', execAll [i, j] s = .next t ∧ execAll [j, i] s = .next t' ∧ (∀ u, t.unit u = t'.unit u) ∧
      t.responses = s.responses ++ [r, r'] ∧ t'.responses = s.responses ++ [r', r]

/-- Incremental equivalence for two chunks (spec/40_context_commands.md R79), from every Active context: the same H, LEN,
fill and pending buffer, the same total `NCOMP`, the same sequence of compressor invocations. -/
def Obligations.TwoUpdatesEqualOne : Prop :=
  ∀ (u : UnitId) (s : State) (d1 d2 : List Byte),
    (s.unit u).life = .active → (s.unit u).len.toNat + 8 * (d1.length + d2.length) < 2 ^ 64 →
    ∃ t t' n1 n2, execAll [.update u (some d1), .update u (some d2)] s = .next t ∧
      exec (.update u (some (d1 ++ d2))) s = .next t' ∧
      (t.unit u).AgreeOnContext (t'.unit u) ∧ (t.unit u).plen = (t'.unit u).plen ∧
      (t.unit u).dout = (t'.unit u).dout ∧ t.trace = t'.trace ∧
      t.responses = s.responses ++ [⟨.ok, n1, none⟩, ⟨.ok, n2, none⟩] ∧
      t'.responses = s.responses ++ [⟨.ok, n1 + n2, none⟩]

/-- What an Active context stands for (spec/10_state.md R34): INIT makes it the empty message, and an UPDATE that does
not overflow appends its operand to it. -/
def Obligations.ContextHoldsMessage : Prop :=
  (∀ (u : UnitId) (s : State), ∃ t, exec (.init u) s = .next t ∧ (t.unit u).Holds []) ∧
  (∀ (u : UnitId) (s : State) (m data : List Byte), (s.unit u).Holds m → 8 * (m ++ data).length < 2 ^ 64 →
    ∃ t, exec (.update u (some data)) s = .next t ∧ (t.unit u).Holds (m ++ data))

/-- The streaming engine refines the hash of the whole message (spec/40_context_commands.md R79,
spec/30_encoding.md R67): INIT, any chunks, FINAL deliver `hashMessage` of the concatenation, from every state; exactly
the blocks of the padded message are compressed, in order; the unit is left Finalized and the other unit alone. -/
def Obligations.ChunkedHashIsHashOfMessage : Prop :=
  ∀ (u : UnitId) (s : State) (chunks : List (List Byte)), 8 * chunks.flatten.length < 2 ^ 64 →
    ∃ t n, execAll (.init u :: (chunks.map fun d => Instr.update u (some d)) ++ [.final u true]) s = .next t ∧
      (t.unit u).dout.toList = hashMessage u chunks.flatten ∧
      t.responses.getLast? = some ⟨.ok, n, some (hashMessage u chunks.flatten)⟩ ∧
      t.responses.length = s.responses.length + chunks.length + 2 ∧
      t.trace = s.trace ++ (blocksOf (padMessage u chunks.flatten)).map (CompressEvent.mk u) ∧
      (t.unit u).life = .finalized ∧ SameOutside u s t

/-- spec/40_context_commands.md R81: the invocation counts. The UPDATE commands make `L div 64`, FINAL one or two, and the
whole hash `(L + 8) div 64 + 1`. -/
def Obligations.InvocationCounts : Prop :=
  ∀ (u : UnitId) (s : State) (chunks : List (List Byte)), 8 * chunks.flatten.length < 2 ^ 64 →
    ∃ t t', execAll (.init u :: chunks.map fun d => Instr.update u (some d)) s = .next t ∧
      exec (.final u true) t = .next t' ∧
      t.trace.length = s.trace.length + chunks.flatten.length / 64 ∧
      t'.trace.length = t.trace.length + (if chunks.flatten.length % 64 ≤ 55 then 1 else 2) ∧
      t'.trace.length = s.trace.length + ((chunks.flatten.length + 8) / 64 + 1)

/-! ## Words and compressors -/

/-- The conversion primitives (spec/20_memory.md R35, R36, R37, R38): the value of four bytes in either order, byte i of a
value in either order, and that decoding an encoded word gives it back. -/
def Obligations.ConversionPrimitives : Prop :=
  (∀ s0 s1 s2 s3 : Byte,
    (le32 s0 s1 s2 s3).toNat = s0.toNat + 2 ^ 8 * s1.toNat + 2 ^ 16 * s2.toNat + 2 ^ 24 * s3.toNat ∧
    (be32 s0 s1 s2 s3).toNat = 2 ^ 24 * s0.toNat + 2 ^ 16 * s1.toNat + 2 ^ 8 * s2.toNat + s3.toNat) ∧
  (∀ v n : Nat, v < 2 ^ (8 * n) → (leBytes v n).length = n ∧ (beBytes v n).length = n ∧
    ∀ i, i < n → ((leBytes v n).getD i 0).toNat = v / 2 ^ (8 * i) % 256 ∧
      ((beBytes v n).getD i 0).toNat = v / 2 ^ (8 * (n - 1 - i)) % 256) ∧
  (∀ w : Word,
    (∃ b0 b1 b2 b3, leBytes w.toNat 4 = [b0, b1, b2, b3] ∧ le32 b0 b1 b2 b3 = w) ∧
    (∃ b0 b1 b2 b3, beBytes w.toNat 4 = [b0, b1, b2, b3] ∧ be32 b0 b1 b2 b3 = w))

/-- The MD5 functions bit by bit and the steps that use them (spec/41_compress_md5.md R88 to R91). -/
def Obligations.Md5FunctionsBitwise : Prop :=
  (∀ (x y z : Word) (k : Nat), k < 32 →
    (md5F x y z).getLsbD k = (if x.getLsbD k then y.getLsbD k else z.getLsbD k) ∧
    (md5G x y z).getLsbD k = (if z.getLsbD k then x.getLsbD k else y.getLsbD k) ∧
    (md5H x y z).getLsbD k = ((x.getLsbD k ^^ y.getLsbD k) ^^ z.getLsbD k) ∧
    (md5I x y z).getLsbD k = (y.getLsbD k ^^ (x.getLsbD k || !z.getLsbD k))) ∧
  (∀ i, i < 64 → md5Fn i = (match i / 16 with
    | 0 => md5F
    | 1 => md5G
    | 2 => md5H
    | _ => md5I))

/-- The word order and the rotation amounts of the four groups (spec/41_compress_md5.md R92, R93); each group uses every
one of the sixteen words exactly once. -/
def Obligations.Md5WordOrderAndRotations : Prop :=
  (∀ i, i < 16 → md5K i = i ∧ md5K (16 + i) = (5 * (16 + i) + 1) % 16 ∧ md5K (32 + i) = (3 * (32 + i) + 5) % 16 ∧
    md5K (48 + i) = (7 * (48 + i)) % 16) ∧
  (∀ g, g < 4 → ∀ k, k < 16 → ∃ i, i < 16 ∧ md5K (16 * g + i) = k ∧ ∀ j, j < 16 → md5K (16 * g + j) = k → j = i) ∧
  (∀ i, i < 16 → md5S i = [7, 12, 17, 22].getD (i % 4) 0 ∧ md5S (16 + i) = [5, 9, 14, 20].getD (i % 4) 0 ∧
    md5S (32 + i) = [4, 11, 16, 23].getD (i % 4) 0 ∧ md5S (48 + i) = [6, 10, 15, 21].getD (i % 4) 0)

/-- The MD5 step (spec/41_compress_md5.md R95): the function of its group, a rotation of the sum, and the four registers
assigned at once; the steps run in increasing order. -/
def Obligations.Md5StepRotates : Prop :=
  ∀ (x : List Word) (r : Md5Regs),
    md5Steps x r 0 = r ∧
    ∀ i, i < 64 →
      let q := md5Steps x r i
      let f := (match i / 16 with
        | 0 => md5F q.b q.c q.d
        | 1 => md5G q.b q.c q.d
        | 2 => md5H q.b q.c q.d
        | _ => md5I q.b q.c q.d)
      let t := q.a + f + x.getD (md5K i) 0 + md5T.getD i 0
      md5Steps x r (i + 1) = ⟨q.d, q.b + t.rotateLeft (md5S i), q.b, q.c⟩

/-- The SHA-1 functions bit by bit, and the rounds and constants that use them (spec/42_compress_sha1.md R102 to
R105). -/
def Obligations.Sha1FunctionsBitwise : Prop :=
  (∀ (x y z : Word) (k : Nat), k < 32 →
    (sha1Ch x y z).getLsbD k = (if x.getLsbD k then y.getLsbD k else z.getLsbD k) ∧
    (sha1Parity x y z).getLsbD k = ((x.getLsbD k ^^ y.getLsbD k) ^^ z.getLsbD k) ∧
    (sha1Maj x y z).getLsbD k =
      decide (2 ≤ (x.getLsbD k).toNat + (y.getLsbD k).toNat + (z.getLsbD k).toNat)) ∧
  (∀ t, t < 80 → (sha1Fn t, sha1K t) = (match t / 20 with
    | 0 => (sha1Ch, 0x5A827999#32)
    | 1 => (sha1Parity, 0x6ED9EBA1#32)
    | 2 => (sha1Maj, 0x8F1BBCDC#32)
    | _ => (sha1Parity, 0xCA62C1D6#32)))

/-- The SHA-1 schedule (spec/42_compress_sha1.md R99, R100): sixteen big-endian words, then the recurrence with its
rotation by 1, 80 words in all. -/
def Obligations.Sha1ScheduleRecurrence : Prop :=
  ∀ blk : Block, (sha1Schedule blk).length = 80 ∧
    (∀ k, k < 16 → (sha1Schedule blk).getD k 0 =
      be32 (blk.toList.getD (4 * k) 0) (blk.toList.getD (4 * k + 1) 0) (blk.toList.getD (4 * k + 2) 0)
        (blk.toList.getD (4 * k + 3) 0)) ∧
    (∀ t, 16 ≤ t → t < 80 → (sha1Schedule blk).getD t 0 =
      ((sha1Schedule blk).getD (t - 3) 0 ^^^ (sha1Schedule blk).getD (t - 8) 0 ^^^
        (sha1Schedule blk).getD (t - 14) 0 ^^^ (sha1Schedule blk).getD (t - 16) 0).rotateLeft 1)

/-- The SHA-1 round (spec/42_compress_sha1.md R106): rotations by 5 and 30, the five registers assigned at once; the
rounds run in increasing order. -/
def Obligations.Sha1RoundRotates : Prop :=
  ∀ (w : List Word) (r : Sha1Regs),
    sha1Rounds w r 0 = r ∧
    ∀ t, t < 80 →
      let q := sha1Rounds w r t
      sha1Rounds w r (t + 1) =
        ⟨q.a.rotateLeft 5 + sha1Fn t q.b q.c q.d + q.e + sha1K t + w.getD t 0, q.a, q.b.rotateLeft 30, q.c, q.d⟩

/-- The compressors around their rounds (spec/41_compress_md5.md R86, R87, R96; spec/42_compress_sha1.md R99, R101,
R107): the block decoded in the unit's byte order, the registers loaded from the accumulator, and the result added back
into it modulo 2^32. -/
def Obligations.CompressorsFeedForward : Prop :=
  (∀ (h : Vector Word (NW .md5)) (h0 h1 h2 h3 : Word) (blk : Block), h.toList = [h0, h1, h2, h3] →
    (∀ k, k < 16 → (blockWords .md5 blk).getD k 0 =
      le32 (blk.toList.getD (4 * k) 0) (blk.toList.getD (4 * k + 1) 0) (blk.toList.getD (4 * k + 2) 0)
        (blk.toList.getD (4 * k + 3) 0)) ∧
    let q := md5Steps (blockWords .md5 blk) ⟨h0, h1, h2, h3⟩ 64
    (compress .md5 h blk).toList = [h0 + q.a, h1 + q.b, h2 + q.c, h3 + q.d]) ∧
  (∀ (h : Vector Word (NW .sha1)) (h0 h1 h2 h3 h4 : Word) (blk : Block), h.toList = [h0, h1, h2, h3, h4] →
    let q := sha1Rounds (sha1Schedule blk) ⟨h0, h1, h2, h3, h4⟩ 80
    (compress .sha1 h blk).toList = [h0 + q.a, h1 + q.b, h2 + q.c, h3 + q.d, h4 + q.e])
end

