-- ==== Sys2Proof/Laws/State.lean ====
section
/-! SUPPORT. What each update of a state or a unit does to each field: one lemma a field. -/

namespace Sys2Proof.Machine

variable (s : State) (u v : UnitId)

/-! ## Replacing a unit -/

@[simp] theorem unit_setUnit_self (c : HashUnit u) : (s.setUnit u c).unit u = c := by cases u <;> rfl

theorem unit_setUnit_of_ne {u v : UnitId} (c : HashUnit u) (h : v ≠ u) : (s.setUnit u c).unit v = s.unit v := by
  cases u <;> cases v <;> first | rfl | exact absurd rfl h

@[simp] theorem setUnit_unit : s.setUnit u (s.unit u) = s := by cases u <;> rfl
@[simp] theorem setUnit_inbox (c : HashUnit u) : (s.setUnit u c).inbox = s.inbox := by cases u <;> rfl
@[simp] theorem setUnit_responses (c : HashUnit u) : (s.setUnit u c).responses = s.responses := by cases u <;> rfl
@[simp] theorem setUnit_reads (c : HashUnit u) : (s.setUnit u c).reads = s.reads := by cases u <;> rfl
@[simp] theorem setUnit_trace (c : HashUnit u) : (s.setUnit u c).trace = s.trace := by cases u <;> rfl
@[simp] theorem setUnit_freeIndex (c : HashUnit u) : (s.setUnit u c).freeIndex = s.freeIndex := by cases u <;> rfl

/-! ## Responding, emitting, raising -/

@[simp] theorem respond_unit (r : Response) : (s.respond r).unit u = s.unit u := by cases u <;> rfl
@[simp] theorem respond_inbox (r : Response) : (s.respond r).inbox = s.inbox := rfl
@[simp] theorem respond_responses (r : Response) : (s.respond r).responses = s.responses ++ [r] := rfl
@[simp] theorem respond_reads (r : Response) : (s.respond r).reads = s.reads := rfl
@[simp] theorem respond_trace (r : Response) : (s.respond r).trace = s.trace := rfl
@[simp] theorem respond_freeIndex (r : Response) : (s.respond r).freeIndex = s.freeIndex := rfl

@[simp] theorem emit_unit (blks : List Block) : (s.emit u blks).unit v = s.unit v := by cases v <;> rfl
@[simp] theorem emit_inbox (blks : List Block) : (s.emit u blks).inbox = s.inbox := rfl
@[simp] theorem emit_responses (blks : List Block) : (s.emit u blks).responses = s.responses := rfl
@[simp] theorem emit_reads (blks : List Block) : (s.emit u blks).reads = s.reads := rfl
@[simp] theorem emit_trace (blks : List Block) :
    (s.emit u blks).trace = s.trace ++ blks.map (CompressEvent.mk u) := rfl
@[simp] theorem emit_freeIndex (blks : List Block) : (s.emit u blks).freeIndex = s.freeIndex := rfl
@[simp] theorem emit_nil : s.emit u [] = s := by simp [State.emit]

/-- Raising an error is responding with it. -/
theorem raise_eq_respond (e : CommandError) : raise e s = s.respond ⟨.error e, 0, none⟩ := rfl

@[simp] theorem raise_unit (e : CommandError) : (raise e s).unit u = s.unit u := by cases u <;> rfl
@[simp] theorem raise_inbox (e : CommandError) : (raise e s).inbox = s.inbox := rfl
@[simp] theorem raise_responses (e : CommandError) :
    (raise e s).responses = s.responses ++ [⟨.error e, 0, none⟩] := rfl
@[simp] theorem raise_reads (e : CommandError) : (raise e s).reads = s.reads := rfl
@[simp] theorem raise_trace (e : CommandError) : (raise e s).trace = s.trace := rfl
@[simp] theorem raise_freeIndex (e : CommandError) : (raise e s).freeIndex = s.freeIndex := rfl

/-! ## Taking a transaction, observing, resetting -/

@[simp] theorem take_unit (rest : List Transaction) : ({ s with inbox := rest } : State).unit u = s.unit u := by
  cases u <;> rfl

@[simp] theorem observeStep_unit (sel : BitVec 8) : (observeStep v sel s).unit u = s.unit u := by cases u <;> rfl
@[simp] theorem observeStep_inbox (sel : BitVec 8) : (observeStep v sel s).inbox = s.inbox := rfl
@[simp] theorem observeStep_responses (sel : BitVec 8) : (observeStep v sel s).responses = s.responses := rfl
@[simp] theorem observeStep_reads (sel : BitVec 8) : (observeStep v sel s).reads = s.reads ++ [observe s v sel] := rfl
@[simp] theorem observeStep_trace (sel : BitVec 8) : (observeStep v sel s).trace = s.trace := rfl
@[simp] theorem observeStep_freeIndex (sel : BitVec 8) : (observeStep v sel s).freeIndex = s.freeIndex + 1 := rfl

@[simp] theorem resetUnits_unit : (resetUnits s).unit u = HashUnit.reset u := by cases u <;> rfl
@[simp] theorem resetUnits_inbox : (resetUnits s).inbox = s.inbox := rfl
@[simp] theorem resetUnits_responses : (resetUnits s).responses = s.responses := rfl
@[simp] theorem resetUnits_reads : (resetUnits s).reads = s.reads := rfl
@[simp] theorem resetUnits_trace : (resetUnits s).trace = s.trace := rfl
@[simp] theorem resetUnits_freeIndex : (resetUnits s).freeIndex = s.freeIndex := rfl

@[simp] theorem reset_unit : State.reset.unit u = HashUnit.reset u := by cases u <;> rfl

/-- A state is its two units and its port records. -/
theorem State.ext_units {s t : State} (hu : ∀ u, t.unit u = s.unit u) (hi : t.inbox = s.inbox)
    (hr : t.responses = s.responses) (hd : t.reads = s.reads) (ht : t.trace = s.trace)
    (hf : t.freeIndex = s.freeIndex) : t = s := by
  have h0 : t.u0 = s.u0 := hu .md5
  have h1 : t.u1 = s.u1 := hu .sha1
  cases s
  cases t
  simp_all

/-! ## The units' own updates -/

variable {u} (c : HashUnit u)

@[simp] theorem wipe_life : (wipe c).life = c.life := rfl
@[simp] theorem wipe_dout : (wipe c).dout = c.dout := rfl
@[simp] theorem wipe_len : (wipe c).len = 0 := rfl
@[simp] theorem wipe_h : (wipe c).h = Vector.replicate (NW u) 0 := rfl
@[simp] theorem wipe_buf : (wipe c).buf = Vector.replicate 64 0 := rfl

@[simp] theorem padfin_life : (padfin c).1.life = c.life := rfl
@[simp] theorem padfin_dout : (padfin c).1.dout = c.dout := rfl
@[simp] theorem padfin_len : (padfin c).1.len = c.len := rfl
@[simp] theorem padfin_buf : (padfin c).1.buf = c.buf := rfl
@[simp] theorem padfin_h : (padfin c).1.h = (blocksOf (padTail c)).foldl (compress u) c.h := rfl
@[simp] theorem padfin_blocks : (padfin c).2 = blocksOf (padTail c) := rfl

@[simp] theorem absorb_life (data : List Byte) : (absorb c data).1.life = c.life := by
  unfold absorb; split <;> rfl
@[simp] theorem absorb_dout (data : List Byte) : (absorb c data).1.dout = c.dout := by
  unfold absorb; split <;> rfl
@[simp] theorem absorb_len (data : List Byte) :
    (absorb c data).1.len = c.len + BitVec.ofNat 64 (8 * data.length) := by
  unfold absorb; split <;> rfl

end Sys2Proof.Machine
end

