-- ==== Sys2Proof/Laws/Bytes.lean ====
section
/-! SUPPORT. Cutting a byte stream into blocks, storing bytes, and bytes of numbers. -/

namespace Sys2Proof.Machine

/-! ## Lists as vectors -/

theorem toList_vectorOfList {α : Type} (n : Nat) (l : List α) (fill : α) :
    (vectorOfList n l fill).toList = l.takeD n fill := rfl

theorem toList_vectorOfList_of_le {α : Type} {n : Nat} {l : List α} (fill : α) (h : n ≤ l.length) :
    (vectorOfList n l fill).toList = l.take n := by
  rw [toList_vectorOfList, List.takeD_eq_take fill h]

theorem vector_eq_of_toList {α : Type} {n : Nat} {a b : Vector α n} (h : a.toList = b.toList) : a = b :=
  Vector.toList_inj.mp h

/-! ## Blocks and tail of a stream -/

@[simp] theorem length_blocksOf (s : List Byte) : (blocksOf s).length = s.length / 64 := by simp [blocksOf]

@[simp] theorem length_tailOf (s : List Byte) : (tailOf s).length = s.length % 64 := by
  simp only [tailOf, List.length_drop]; omega

theorem blocksOf_of_short {s : List Byte} (h : s.length < 64) : blocksOf s = [] := by
  simp [blocksOf, Nat.div_eq_of_lt h]

theorem tailOf_of_short {s : List Byte} (h : s.length < 64) : tailOf s = s := by
  simp [tailOf, Nat.div_eq_of_lt h]

theorem tailOf_of_dvd {s : List Byte} (h : s.length % 64 = 0) : tailOf s = [] := by
  apply List.eq_nil_of_length_eq_zero; simpa using h

/-- The block of a 64-byte front is the front. -/
theorem toList_blockAt_zero {s : List Byte} (h : 64 ≤ s.length) : (blockAt s 0).toList = s.take 64 := by
  rw [blockAt, Nat.mul_zero, List.drop_zero]
  exact toList_vectorOfList_of_le 0 h

theorem blockAt_succ (s : List Byte) (j : Nat) : blockAt s (j + 1) = blockAt (s.drop 64) j := by
  unfold blockAt
  rw [List.drop_drop, Nat.mul_succ, Nat.add_comm]

/-- One block and the blocks of what follows it. -/
theorem blocksOf_cons {s : List Byte} (h : 64 ≤ s.length) :
    blocksOf s = blockAt s 0 :: blocksOf (s.drop 64) := by
  have hq : s.length / 64 = (s.drop 64).length / 64 + 1 := by simp only [List.length_drop]; omega
  rw [blocksOf, hq, List.range_succ_eq_map, List.map_cons, List.map_map]
  congr 1
  exact List.map_congr_left fun j _ => blockAt_succ s j

theorem tailOf_drop {s : List Byte} (h : 64 ≤ s.length) : tailOf (s.drop 64) = tailOf s := by
  have hq : 64 + 64 * ((s.length - 64) / 64) = 64 * (s.length / 64) := by omega
  simp [tailOf, List.drop_drop, hq]

/-- The blocks of a stream to which bytes are appended: its own, then those its tail completes. -/
theorem blocksOf_append (s t : List Byte) : blocksOf (s ++ t) = blocksOf s ++ blocksOf (tailOf s ++ t) := by
  induction hn : s.length using Nat.strong_induction_on generalizing s with
  | _ n ih =>
    by_cases h : s.length < 64
    · rw [blocksOf_of_short h, tailOf_of_short h, List.nil_append]
    · have hle : 64 ≤ s.length := by omega
      have hfront : blockAt (s ++ t) 0 = blockAt s 0 := by
        apply vector_eq_of_toList
        rw [toList_blockAt_zero hle, toList_blockAt_zero (by simp; omega), List.take_append_of_le_length hle]
      rw [blocksOf_cons (s := s ++ t) (by simp; omega), blocksOf_cons hle, hfront,
        List.drop_append_of_le_length hle, ih (s.drop 64).length (by simp; omega) (s.drop 64) rfl,
        tailOf_drop hle, List.cons_append]

/-- The tail of a stream to which bytes are appended. -/
theorem tailOf_append (s t : List Byte) : tailOf (s ++ t) = tailOf (tailOf s ++ t) := by
  have hlen : (tailOf s ++ t).length = s.length % 64 + t.length := by simp
  have hq : 64 * ((s.length + t.length) / 64) =
      64 * (s.length / 64) + 64 * ((s.length % 64 + t.length) / 64) := by omega
  rw [tailOf, tailOf, hlen, List.length_append, hq, ← List.drop_drop]
  congr 1
  rw [tailOf, List.drop_append_of_le_length (by omega)]

/-! ## The store -/

/-- Bytes stored behind the first idx bytes of the store, where they fit. -/
theorem toList_storeAt {idx : Nat} {data : List Byte} (buf : Vector Byte 64) (h : idx + data.length ≤ 64) :
    (storeAt buf idx data).toList = buf.toList.take idx ++ data ++ buf.toList.drop (idx + data.length) := by
  have hlen : (buf.toList.take idx ++ data ++ buf.toList.drop (idx + data.length)).length = 64 := by
    simp; omega
  rw [storeAt, toList_vectorOfList_of_le _ (by omega), List.take_of_length_le (by omega)]

/-- The front of the store after bytes are stored. -/
theorem take_storeAt {idx : Nat} {data : List Byte} (buf : Vector Byte 64) (h : idx + data.length ≤ 64) :
    (storeAt buf idx data).toList.take (idx + data.length) = buf.toList.take idx ++ data := by
  rw [toList_storeAt buf h, List.take_append_of_le_length (by simp; omega), List.take_of_length_le (by simp)]

@[simp] theorem storeAt_nil (buf : Vector Byte 64) {idx : Nat} (h : idx ≤ 64) : storeAt buf idx [] = buf := by
  apply vector_eq_of_toList
  rw [toList_storeAt buf (by simpa using h)]
  simp

/-! ## The fill and the pending buffer -/

section
variable {u : UnitId} (c : HashUnit u)

theorem plen_eq : c.plen = c.len.toNat / 8 % 64 := by simp [HashUnit.plen, Nat.shiftRight_eq_div_pow]

theorem plen_lt : c.plen < 64 := by rw [plen_eq]; omega

@[simp] theorem length_pbuf : c.pbuf.length = c.plen := by
  have := plen_lt c
  simp [HashUnit.pbuf]; omega

theorem pbuf_of_len_zero (h : c.len = 0) : c.pbuf = [] := by
  simp [HashUnit.pbuf, plen_eq, h]

end

/-! ## Bytes of numbers -/

@[simp] theorem length_leBytes (v n : Nat) : (leBytes v n).length = n := by simp [leBytes]
@[simp] theorem length_beBytes (v n : Nat) : (beBytes v n).length = n := by simp [beBytes]
@[simp] theorem length_bytesOfNat (u : UnitId) (v n : Nat) : (bytesOfNat u v n).length = n := by
  cases u <;> simp [bytesOfNat]

@[simp] theorem length_blockWords (u : UnitId) (blk : Block) : (blockWords u blk).length = 16 := by simp [blockWords]

end Sys2Proof.Machine
end

