-- ==== Sys2Proof/Laws/Decode.lean ====
section
/-! SUPPORT. What decode answers for a code whose fields are known. -/

namespace Sys2Proof

variable {cc : BitVec 8} {data : List Byte}

theorem decode_init (hr : ccRsv cc = 0) (ho : ccOp cc = 0b01#2) (hp : ccP cc = false) :
    decode ⟨cc, data⟩ = .ok (.init (UnitId.ofBit (ccU cc))) := by
  simp [decode, hr, ho, hp]

theorem decode_update (hr : ccRsv cc = 0) (ho : ccOp cc = 0b10#2) :
    decode ⟨cc, data⟩ = .ok (.update (UnitId.ofBit (ccU cc)) (if ccP cc then some data else none)) := by
  simp [decode, hr, ho]

theorem decode_final (hr : ccRsv cc = 0) (ho : ccOp cc = 0b11#2) :
    decode ⟨cc, data⟩ = .ok (.final (UnitId.ofBit (ccU cc)) (ccP cc)) := by
  simp [decode, hr, ho]

/-- OP has four values. -/
theorem ccOp_cases (cc : BitVec 8) : ccOp cc = 0b00#2 ∨ ccOp cc = 0b01#2 ∨ ccOp cc = 0b10#2 ∨ ccOp cc = 0b11#2 := by
  generalize ccOp cc = op
  revert op
  decide

/-- A code is its four fields (spec/30_encoding.md R54). -/
theorem cc_of_fields : ∀ cc : BitVec 8,
    ccRsv cc = 0 → ccOfFields (ccP cc) (UnitId.ofBit (ccU cc)) (ccOp cc) = cc := by decide +kernel

/-- The fields of an assembled code are the fields it was assembled from. -/
theorem fields_of_cc : ∀ (p : Bool) (bit : Bool) (op : BitVec 2),
    ccRsv (ccOfFields p (UnitId.ofBit bit) op) = 0 ∧ ccP (ccOfFields p (UnitId.ofBit bit) op) = p ∧
      ccU (ccOfFields p (UnitId.ofBit bit) op) = bit ∧ ccOp (ccOfFields p (UnitId.ofBit bit) op) = op := by
  decide +kernel

end Sys2Proof
end

