-- ==== Sys2Proof/Laws/Ops.lean ====
section
/-! SUPPORT. What each shared operation can do, said once: absorb, the padding, check, and the three commands. -/

namespace Sys2Proof.Machine

section
variable {u : UnitId} (c : HashUnit u) (data : List Byte)

/-! ## absorb -/

theorem absorb_blocks : (absorb c data).2 = blocksOf (c.pbuf ++ data) := by
  unfold absorb
  split
  · exact (blocksOf_of_short (by simpa)).symm
  · rfl

theorem absorb_h : (absorb c data).1.h = (blocksOf (c.pbuf ++ data)).foldl (compress u) c.h := by
  unfold absorb
  split
  · rw [blocksOf_of_short (by simpa)]; rfl
  · rfl

theorem absorb_plen : (absorb c data).1.plen = (c.plen + data.length) % 64 := by
  rw [plen_eq, plen_eq, absorb_len, BitVec.toNat_add, BitVec.toNat_ofNat]
  omega

theorem absorb_pbuf : (absorb c data).1.pbuf = tailOf (c.pbuf ++ data) := by
  have hp := plen_lt c
  rw [HashUnit.pbuf, absorb_plen]
  unfold absorb
  split
  · next h =>
    rw [tailOf_of_short (by simpa), Nat.mod_eq_of_lt h]
    exact take_storeAt c.buf (by omega)
  · have hlen : (tailOf (c.pbuf ++ data)).length = (c.plen + data.length) % 64 := by simp
    have := take_storeAt (idx := 0) (data := tailOf (c.pbuf ++ data)) c.buf (by omega)
    simpa [hlen] using this

/-- Absorbing nothing changes nothing. -/
theorem absorb_nil : absorb c [] = (c, []) := by
  have hp := plen_lt c
  unfold absorb
  rw [if_pos (by simpa using hp), storeAt_nil _ (by omega)]
  simp

/-! ## The padding -/

theorem padZeros_of_le {idx : Nat} (h : idx ≤ 55) : padZeros idx = 55 - idx := by
  unfold padZeros; omega

theorem padZeros_of_gt {idx : Nat} (h : 55 < idx) (h' : idx < 64) : padZeros idx = 119 - idx := by
  unfold padZeros; omega

theorem length_padTail : (padTail c).length = if c.plen ≤ 55 then 64 else 128 := by
  have hp := plen_lt c
  have hl : (padTail c).length = c.plen + 1 + padZeros c.plen + 8 := by simp [padTail]; omega
  rw [hl]
  split
  · next h => rw [padZeros_of_le h]; omega
  · next h => rw [padZeros_of_gt (by omega) hp]; omega

theorem length_padfin_blocks : (blocksOf (padTail c)).length = if c.plen ≤ 55 then 1 else 2 := by
  rw [length_blocksOf, length_padTail]; split <;> rfl

end

/-! ## serialize -/

theorem length_serialize (u : UnitId) (h : Vector Word (NW u)) : (serialize u h).length = DL u := by
  have hl : (serialize u h).length = NW u * 4 := by simp [serialize, List.length_flatMap]
  rw [hl]
  cases u <;> rfl

/-- The output register holds the serialised accumulator whole. -/
theorem toList_dout_of_serialize (u : UnitId) (h : Vector Word (NW u)) :
    (vectorOfList (DL u) (serialize u h) 0).toList = serialize u h := by
  have hl := length_serialize u h
  rw [toList_vectorOfList_of_le 0 (by omega), List.take_of_length_le (by omega)]

/-! ## check -/

@[simp] theorem check_absent (p : Bool) : check .absent p = some .nullInput := rfl
@[simp] theorem check_no_operand (l : Life) : check l false = some .nullInput := by cases l <;> rfl
@[simp] theorem check_active : check .active true = none := rfl
@[simp] theorem check_finalized : check .finalized true = some .stateError := rfl
@[simp] theorem check_corrupted : check .corrupted true = some .stateError := rfl

/-- check passes exactly an Active unit with the operand present. -/
theorem check_eq_none {l : Life} {p : Bool} : check l p = none ↔ l = .active ∧ p = true := by
  cases l <;> cases p <;> decide

/-- check raises NullInputError or StateError, nothing else. -/
theorem check_error {l : Life} {p : Bool} {e : CommandError} (h : check l p = some e) :
    e = .nullInput ∨ e = .stateError := by
  cases l <;> cases p <;> simp_all

/-! ## The three commands -/

theorem exec_init (u : UnitId) (s : State) : exec (.init u) s = .next (initUnit u s) := by cases u <;> rfl

theorem exec_update (u : UnitId) (operand : Option (List Byte)) (s : State) :
    exec (.update u operand) s = .next (updateUnit u operand s) := by cases u <;> rfl

theorem exec_final (u : UnitId) (sink : Bool) (s : State) :
    exec (.final u sink) s = .next (finalUnit u sink s) := by cases u <;> rfl

/-- Every command is INIT, UPDATE or FINAL to its unit. -/
theorem instr_cases (i : Instr) :
    i = .init i.unit ∨ (∃ operand, i = .update i.unit operand) ∨ (∃ sink, i = .final i.unit sink) := by
  cases i
  · exact .inl rfl
  · exact .inl rfl
  · exact .inr (.inl ⟨_, rfl⟩)
  · exact .inr (.inl ⟨_, rfl⟩)
  · exact .inr (.inr ⟨_, rfl⟩)
  · exact .inr (.inr ⟨_, rfl⟩)

@[simp] theorem init_unit (u : UnitId) : (Instr.init u).unit = u := by cases u <;> rfl
@[simp] theorem update_unit (u : UnitId) (operand : Option (List Byte)) : (Instr.update u operand).unit = u := by
  cases u <;> rfl
@[simp] theorem final_unit (u : UnitId) (sink : Bool) : (Instr.final u sink).unit = u := by cases u <;> rfl

variable {u : UnitId} {s : State}

theorem updateUnit_of_error {operand : Option (List Byte)} {e : CommandError}
    (h : check (s.unit u).life operand.isSome = some e) : updateUnit u operand s = raise e s := by
  simp [updateUnit, h]

theorem updateUnit_of_overflow {data : List Byte} (ha : (s.unit u).life = .active)
    (ho : 2 ^ 64 ≤ (s.unit u).len.toNat + 8 * data.length) :
    updateUnit u (some data) s = raise .overflow (s.setUnit u { s.unit u with life := .corrupted }) := by
  have : wouldOverflow (s.unit u).len data.length = true := decide_eq_true ho
  simp [updateUnit, ha, this]

theorem updateUnit_of_ok {data : List Byte} (ha : (s.unit u).life = .active)
    (ho : (s.unit u).len.toNat + 8 * data.length < 2 ^ 64) :
    updateUnit u (some data) s =
      ((s.setUnit u (absorb (s.unit u) data).1).emit u (absorb (s.unit u) data).2).respond
        ⟨.ok, BitVec.ofNat 64 (absorb (s.unit u) data).2.length, none⟩ := by
  have : wouldOverflow (s.unit u).len data.length = false := decide_eq_false (by omega)
  simp [updateUnit, ha, this]

/-- Everything an UPDATE can do. -/
theorem updateUnit_cases (operand : Option (List Byte)) :
    (∃ e, check (s.unit u).life operand.isSome = some e ∧ updateUnit u operand s = raise e s) ∨
    (∃ data, operand = some data ∧ (s.unit u).life = .active ∧
      2 ^ 64 ≤ (s.unit u).len.toNat + 8 * data.length ∧
      updateUnit u operand s = raise .overflow (s.setUnit u { s.unit u with life := .corrupted })) ∨
    (∃ data, operand = some data ∧ (s.unit u).life = .active ∧
      (s.unit u).len.toNat + 8 * data.length < 2 ^ 64 ∧
      updateUnit u operand s =
        ((s.setUnit u (absorb (s.unit u) data).1).emit u (absorb (s.unit u) data).2).respond
          ⟨.ok, BitVec.ofNat 64 (absorb (s.unit u) data).2.length, none⟩) := by
  cases hc : check (s.unit u).life operand.isSome with
  | some e => exact .inl ⟨e, rfl, updateUnit_of_error hc⟩
  | none =>
    obtain ⟨ha, hp⟩ := check_eq_none.mp hc
    obtain ⟨data, rfl⟩ := Option.isSome_iff_exists.mp hp
    rcases Nat.lt_or_ge ((s.unit u).len.toNat + 8 * data.length) (2 ^ 64) with ho | ho
    · exact .inr (.inr ⟨data, rfl, ha, ho, updateUnit_of_ok ha ho⟩)
    · exact .inr (.inl ⟨data, rfl, ha, ho, updateUnit_of_overflow ha ho⟩)

/-- The unit a successful FINAL leaves. -/
def finalizedUnit {u : UnitId} (c : HashUnit u) : HashUnit u where
  h := Vector.replicate (NW u) 0
  len := 0
  buf := Vector.replicate 64 0
  life := .finalized
  dout := vectorOfList (DL u) (serialize u ((blocksOf (padTail c)).foldl (compress u) c.h)) 0

theorem finalUnit_of_error {sink : Bool} {e : CommandError} (h : check (s.unit u).life sink = some e) :
    finalUnit u sink s = raise e s := by
  simp [finalUnit, h]

theorem finalUnit_of_ok (ha : (s.unit u).life = .active) :
    finalUnit u true s =
      ((s.setUnit u (finalizedUnit (s.unit u))).emit u (blocksOf (padTail (s.unit u)))).respond
        ⟨.ok, BitVec.ofNat 64 (blocksOf (padTail (s.unit u))).length,
          some (finalizedUnit (s.unit u)).dout.toList⟩ := by
  simp only [finalUnit, ha, check_active, finalizedUnit, toList_dout_of_serialize]
  rfl

/-- Everything a FINAL can do. -/
theorem finalUnit_cases (sink : Bool) :
    (∃ e, check (s.unit u).life sink = some e ∧ finalUnit u sink s = raise e s) ∨
    (sink = true ∧ (s.unit u).life = .active ∧
      finalUnit u sink s =
        ((s.setUnit u (finalizedUnit (s.unit u))).emit u (blocksOf (padTail (s.unit u)))).respond
          ⟨.ok, BitVec.ofNat 64 (blocksOf (padTail (s.unit u))).length,
            some (finalizedUnit (s.unit u)).dout.toList⟩) := by
  cases hc : check (s.unit u).life sink with
  | some e => exact .inl ⟨e, rfl, finalUnit_of_error hc⟩
  | none =>
    obtain ⟨ha, rfl⟩ := check_eq_none.mp hc
    exact .inr ⟨rfl, ha, finalUnit_of_ok ha⟩

end Sys2Proof.Machine
end

