-- ==== Sys2Proof/Laws/Exec.lean ====
section
/-! SUPPORT. What any command does to a state, and what each step does by the transaction it takes. -/

namespace Sys2Proof.Machine

theorem sameOutside_of_setUnit (u : UnitId) (s : State) (c : HashUnit u) (blks : List Block) (r : Response) :
    SameOutside u s (((s.setUnit u c).emit u blks).respond r) where
  other := fun v hv => by simp [unit_setUnit_of_ne s c hv]
  inbox := by simp
  reads := by simp
  freeIndex := by simp

theorem sameOutside_raise (u : UnitId) (s : State) (e : CommandError) : SameOutside u s (raise e s) where
  other := fun v _ => by simp
  inbox := rfl
  reads := rfl
  freeIndex := rfl

/-- The result of an INIT is a function of the addressed unit. -/
theorem initUnit_form (u : UnitId) (s : State) :
    ∃ c blks r, ∀ s' : State, s'.unit u = s.unit u → initUnit u s' = ((s'.setUnit u c).emit u blks).respond r :=
  ⟨{ s.unit u with h := initialH u, len := 0, life := .active }, [], ⟨.ok, 0, none⟩, fun s' h => by
    rw [initUnit, emit_nil, h]⟩

/-- The result of an UPDATE is a function of the addressed unit: every state with that unit gets the same new unit, the
same blocks compressed, the same response. -/
theorem updateUnit_form (u : UnitId) (operand : Option (List Byte)) (s : State) :
    ∃ c blks r, ∀ s' : State, s'.unit u = s.unit u →
      updateUnit u operand s' = ((s'.setUnit u c).emit u blks).respond r := by
  rcases updateUnit_cases (u := u) (s := s) operand with ⟨e, hc, -⟩ | ⟨data, rfl, ha, ho, -⟩ | ⟨data, rfl, ha, ho, -⟩
  · exact ⟨s.unit u, [], ⟨.error e, 0, none⟩, fun s' h => by
      rw [updateUnit_of_error (by rw [h]; exact hc), ← h, setUnit_unit, emit_nil, raise_eq_respond]⟩
  · exact ⟨_, [], ⟨.error .overflow, 0, none⟩, fun s' h => by
      rw [updateUnit_of_overflow (by rw [h]; exact ha) (by rw [h]; exact ho), emit_nil, h, raise_eq_respond]⟩
  · exact ⟨_, _, _, fun s' h => by
      rw [updateUnit_of_ok (by rw [h]; exact ha) (by rw [h]; exact ho), h]⟩

/-- The result of a FINAL is a function of the addressed unit. -/
theorem finalUnit_form (u : UnitId) (sink : Bool) (s : State) :
    ∃ c blks r, ∀ s' : State, s'.unit u = s.unit u →
      finalUnit u sink s' = ((s'.setUnit u c).emit u blks).respond r := by
  rcases finalUnit_cases (u := u) (s := s) sink with ⟨e, hc, -⟩ | ⟨rfl, ha, -⟩
  · exact ⟨s.unit u, [], ⟨.error e, 0, none⟩, fun s' h => by
      rw [finalUnit_of_error (by rw [h]; exact hc), ← h, setUnit_unit, emit_nil, raise_eq_respond]⟩
  · exact ⟨_, _, _, fun s' h => by rw [finalUnit_of_ok (by rw [h]; exact ha), h]⟩

/-- The form of every command's result: a new unit, the blocks compressed, a response, each a function of the addressed
unit alone. -/
theorem exec_form (i : Instr) (s : State) :
    ∃ c blks r, ∀ s' : State, s'.unit i.unit = s.unit i.unit →
      exec i s' = .next (((s'.setUnit i.unit c).emit i.unit blks).respond r) := by
  cases i with
  | initMd5 =>
    obtain ⟨c, blks, r, h⟩ := initUnit_form .md5 s
    exact ⟨c, blks, r, fun s' hs => congrArg _ (h s' hs)⟩
  | initSha1 =>
    obtain ⟨c, blks, r, h⟩ := initUnit_form .sha1 s
    exact ⟨c, blks, r, fun s' hs => congrArg _ (h s' hs)⟩
  | updateMd5 operand =>
    obtain ⟨c, blks, r, h⟩ := updateUnit_form .md5 operand s
    exact ⟨c, blks, r, fun s' hs => congrArg _ (h s' hs)⟩
  | updateSha1 operand =>
    obtain ⟨c, blks, r, h⟩ := updateUnit_form .sha1 operand s
    exact ⟨c, blks, r, fun s' hs => congrArg _ (h s' hs)⟩
  | finalMd5 sink =>
    obtain ⟨c, blks, r, h⟩ := finalUnit_form .md5 sink s
    exact ⟨c, blks, r, fun s' hs => congrArg _ (h s' hs)⟩
  | finalSha1 sink =>
    obtain ⟨c, blks, r, h⟩ := finalUnit_form .sha1 sink s
    exact ⟨c, blks, r, fun s' hs => congrArg _ (h s' hs)⟩

/-- Every command answers a next state with one more response, and leaves alone what is outside its unit. -/
theorem exec_next (i : Instr) (s : State) :
    ∃ t r, ∃ blks : List Block, exec i s = .next t ∧ t.responses = s.responses ++ [r] ∧
      t.trace = s.trace ++ blks.map (CompressEvent.mk i.unit) ∧ SameOutside i.unit s t := by
  obtain ⟨c, blks, r, h⟩ := exec_form i s
  exact ⟨_, r, blks, h s rfl, by simp, by simp, sameOutside_of_setUnit _ _ _ _ _⟩

/-- A command neither reads nor changes the transactions that wait. -/
theorem exec_inbox (i : Instr) (s : State) :
    ∃ t, exec i s = .next t ∧ ∀ rest, exec i { s with inbox := rest } = .next { t with inbox := rest } := by
  obtain ⟨c, blks, r, h⟩ := exec_form i s
  refine ⟨_, h s rfl, fun rest => ?_⟩
  rw [h { s with inbox := rest } (take_unit s _ rest)]
  generalize i.unit = u at c
  cases u <;> rfl

/-! ## The step, by transaction -/

theorem step_command {s : State} {f : Frame} {rest : List Transaction} {i : Instr}
    (hs : s.inbox = .command f :: rest) (hd : decode f = .ok i) : step s = exec i { s with inbox := rest } := by
  simp [step, hs, hd]

theorem step_illegal {s : State} {f : Frame} {rest : List Transaction} {e : DecodeError}
    (hs : s.inbox = .command f :: rest) (hd : decode f = .error e) :
    step s = .next (raise .illegalCommand { s with inbox := rest }) := by
  simp [step, hs, hd]

/-- Everything a step can do. -/
theorem step_cases (s : State) :
    (s.inbox = [] ∧ step s = .next s) ∨
    (∃ rest, s.inbox = .reset :: rest ∧ step s = .next (resetUnits { s with inbox := rest })) ∨
    (∃ u sel rest, s.inbox = .observe u sel :: rest ∧ step s = .next (observeStep u sel { s with inbox := rest })) ∨
    (∃ f rest e, s.inbox = .command f :: rest ∧ decode f = .error e ∧
      step s = .next (raise .illegalCommand { s with inbox := rest })) ∨
    (∃ f rest i, s.inbox = .command f :: rest ∧ decode f = .ok i ∧ step s = exec i { s with inbox := rest }) := by
  cases hs : s.inbox with
  | nil => exact .inl ⟨rfl, by simp [step, hs]⟩
  | cons x rest =>
    cases x with
    | reset => exact .inr (.inl ⟨rest, rfl, by simp [step, hs]⟩)
    | observe u sel => exact .inr (.inr (.inl ⟨u, sel, rest, rfl, by simp [step, hs]⟩))
    | command f =>
      cases hd : decode f with
      | error e => exact .inr (.inr (.inr (.inl ⟨f, rest, e, rfl, hd, step_illegal hs hd⟩)))
      | ok i => exact .inr (.inr (.inr (.inr ⟨f, rest, i, rfl, hd, step_command hs hd⟩)))

end Sys2Proof.Machine
end

