-- ==== Sys2Proof/Laws/PerInstr.lean ====
section
/-! SUPPORT. Statements about every command as syntax, one lemma a constructor. -/

namespace Sys2Proof.Laws.EncodedFields

/-- The code of a command has `RSV = 0` and carries the command's own P, U and OP (spec/30_encoding.md R54), OP is never
the reserved 0b00, and only UPDATE with P = 1 is accompanied by bytes (R56). -/
def Statement (i : Instr) : Prop :=
  ccRsv (encode i).cc = 0 ∧ ccP (encode i).cc = i.p ∧ ccU (encode i).cc = i.unit.bit ∧ ccOp (encode i).cc = i.op ∧
    i.op ≠ 0 ∧ ((encode i).data ≠ [] → i.op = 0b10#2 ∧ i.p = true)

theorem initMd5 : Statement .initMd5 := by
  refine ⟨?_, ?_, ?_, ?_, ?_, ?_⟩ <;> decide

theorem initSha1 : Statement .initSha1 := by
  refine ⟨?_, ?_, ?_, ?_, ?_, ?_⟩ <;> decide

theorem updateMd5 (operand : Option (List Byte)) : Statement (.updateMd5 operand) := by
  cases operand
  · refine ⟨?_, ?_, ?_, ?_, ?_, ?_⟩ <;> decide
  · exact ⟨(by decide : ccRsv (ccOfFields true .md5 0b10#2) = 0), (by decide : ccP (ccOfFields true .md5 0b10#2) = true),
      (by decide : ccU (ccOfFields true .md5 0b10#2) = UnitId.bit .md5),
      (by decide : ccOp (ccOfFields true .md5 0b10#2) = 0b10#2), (by decide : (0b10#2 : BitVec 2) ≠ 0), fun _ => ⟨rfl, rfl⟩⟩

theorem updateSha1 (operand : Option (List Byte)) : Statement (.updateSha1 operand) := by
  cases operand
  · refine ⟨?_, ?_, ?_, ?_, ?_, ?_⟩ <;> decide
  · exact ⟨(by decide : ccRsv (ccOfFields true .sha1 0b10#2) = 0), (by decide : ccP (ccOfFields true .sha1 0b10#2) = true),
      (by decide : ccU (ccOfFields true .sha1 0b10#2) = UnitId.bit .sha1),
      (by decide : ccOp (ccOfFields true .sha1 0b10#2) = 0b10#2), (by decide : (0b10#2 : BitVec 2) ≠ 0), fun _ => ⟨rfl, rfl⟩⟩

theorem finalMd5 (sink : Bool) : Statement (.finalMd5 sink) := by
  cases sink <;> refine ⟨?_, ?_, ?_, ?_, ?_, ?_⟩ <;> decide

theorem finalSha1 (sink : Bool) : Statement (.finalSha1 sink) := by
  cases sink <;> refine ⟨?_, ?_, ?_, ?_, ?_, ?_⟩ <;> decide

end Sys2Proof.Laws.EncodedFields
end

