-- ==== Sys2Proof/Machine/Text.lean ====
section
/-! DEFINITION. The textual notation of commands, observation reads and responses (spec/30_encoding.md R66), as a
printer; digests and bytes are printed as spec/00_scope.md R10 says, high nibble first. Nothing of the machine reads it.
Log entry 13. -/

namespace Sys2Proof.Machine

/-- A hexadecimal digit of the string `digits`. -/
def hexDigit (digits : String) (n : Nat) : String := String.singleton (digits.toList.getD n '0')

/-- A byte as two lowercase nibble characters, high nibble first (R10). -/
def hexByte (b : Byte) : String :=
  hexDigit "0123456789abcdef" (b.toNat / 16) ++ hexDigit "0123456789abcdef" (b.toNat % 16)

/-- A code as 0xNN, with capital digits as R66 writes it. -/
def hexCode (b : Byte) : String :=
  "0x" ++ hexDigit "0123456789ABCDEF" (b.toNat / 16) ++ hexDigit "0123456789ABCDEF" (b.toNat % 16)

/-- A digest as a hexadecimal string without separators (R10). -/
def hexDigest (d : List Byte) : String := String.join (d.map hexByte)

/-- The unit part of a mnemonic. -/
def unitText : UnitId → String
  | .md5 => "MD5"
  | .sha1 => "SHA1"

/-- `<bytes>` in the braced hexadecimal form (R66); the braces are the characters 0x7B and 0x7D. -/
def bytesText (data : List Byte) : String :=
  String.singleton (Char.ofNat 0x7B) ++ " ".intercalate (data.map hexByte) ++ String.singleton (Char.ofNat 0x7D)

/-- The operand of an UPDATE: its bytes, or NULL when P = 0 (R66). -/
def operandText : Option (List Byte) → String
  | none => " NULL"
  | some data => " " ++ bytesText data

/-- A command as R66 writes it. -/
def instrText : Instr → String
  | .initMd5 => "INIT.MD5"
  | .initSha1 => "INIT.SHA1"
  | .updateMd5 operand => "UPDATE.MD5" ++ operandText operand
  | .updateSha1 operand => "UPDATE.SHA1" ++ operandText operand
  | .finalMd5 sink => "FINAL.MD5" ++ (if sink then "" else " NULL")
  | .finalSha1 sink => "FINAL.SHA1" ++ (if sink then "" else " NULL")

/-- A command frame: the command it decodes to, or ILLEGAL and its code (R66). -/
def frameText (f : Frame) : String :=
  match decode f with
  | .ok i => instrText i
  | .error _ => "ILLEGAL " ++ hexCode f.cc

/-- The name of an observation selector of unit u (R66, spec/10_state.md R28); a reserved selector has no name. -/
def selectorText (u : UnitId) (sel : BitVec 8) : Option String :=
  let n := sel.toNat
  if n = 0x00 then some "STATUS"
  else if n = 0x01 then some "LEN_LO"
  else if n = 0x02 then some "LEN_HI"
  else if 0x04 ≤ n ∧ n < 0x04 + NW u then some ("H" ++ toString (n - 0x04))
  else if 0x40 ≤ n ∧ n < 0x40 + 64 then some ("BUF" ++ toString (n - 0x40))
  else if 0x80 ≤ n ∧ n < 0x80 + DL u then some ("DOUT" ++ toString (n - 0x80))
  else none

/-- An observation read as R66 writes it. -/
def readText (u : UnitId) (sel : BitVec 8) : Option String :=
  (selectorText u sel).map fun name => "RD." ++ unitText u ++ " " ++ name

/-- The name of a status (spec/30_encoding.md R62). -/
def statusText : Status → String
  | .ok => "OK"
  | .error .nullInput => "NullInputError"
  | .error .stateError => "StateError"
  | .error .overflow => "OverflowError"
  | .error .illegalCommand => "IllegalCommand"

/-- The text after `->` in a listing (R66). -/
def responseText (r : Response) : String :=
  statusText r.status ++ " NCOMP=" ++ toString r.ncomp.toNat ++
    (match r.digest with
     | none => ""
     | some d => " " ++ hexDigest d)

end Sys2Proof.Machine
end

