-- ==== Sys2Proof/Tests/Slice0.lean ====
section
/-! SUPPORT. Tests whose expected values are written in the spec (each comment names the row V<n> of
spec/95_test_vectors.md or the rule), the smoke test of WellFormed, and for every statement with hypotheses a witness
that meets them together. -/

namespace Sys2Proof.Machine

/-- A state with transactions queued. -/
def State.withInbox (s : State) (l : List Transaction) : State := { s with inbox := l }

end Sys2Proof.Machine

namespace Sys2Proof.Tests

open Sys2Proof.Machine

/-! ## Helpers -/

/-- The next state of an outcome, if it is one. -/
def after : Host.Outcome State Fault Refusal → Option State
  | .next t => some t
  | .fault _ => none
  | .refused _ => none

/-- After reset, but unit u has a lifecycle flag, a count, the initial accumulator and pending bytes of our choice. -/
def unitIn (u : UnitId) (life : Life) (len : Count) (pending : List Byte) : State :=
  State.reset.setUnit u
    { HashUnit.reset u with h := initialH u, len := len, life := life, buf := vectorOfList 64 pending 0 }

/-- A block from its bytes. -/
def block (l : List Byte) : Block := vectorOfList 64 l 0

/-- "abc". -/
def abc : List Byte := [0x61, 0x62, 0x63]

/-- k bytes of the alphabet repeated, the messages of spec/95_test_vectors.md section 6. -/
def alphabet (k : Nat) : List Byte := (List.range k).map fun i => BitVec.ofNat 8 (0x41 + i % 26)

/-! ## WellFormed refuses ill-formed terms -/

theorem long_does_not_fit : countFits (List.replicate (2 ^ 64) 0) = false :=
  decide_eq_false (by rw [List.length_replicate]; exact Nat.lt_irrefl _)

theorem longest_fits : countFits (List.replicate (2 ^ 64 - 1) 0) = true :=
  decide_eq_true (by rw [List.length_replicate]; omega)

-- R53: n has 64 bits, so no operand has 2^64 bytes or more.
theorem test_wf_refuses_long_md5_operand : Instr.wf (.updateMd5 (some (List.replicate (2 ^ 64) 0))) = false :=
  long_does_not_fit

theorem test_wf_refuses_long_sha1_operand : Instr.wf (.updateSha1 (some (List.replicate (2 ^ 64) 0))) = false :=
  long_does_not_fit

theorem test_wf_refuses_long_frame : Frame.wf ⟨0x0A, List.replicate (2 ^ 64) 0⟩ = false :=
  long_does_not_fit

-- R53: 2^64 - 1 bytes still fit.
theorem test_wf_takes_longest_operand : Instr.wf (.updateMd5 (some (List.replicate (2 ^ 64 - 1) 0))) = true :=
  longest_fits

/-! ## Decoding: words written out from R54 and V80 to V95 -/

-- V80, V81: RSV 0000, P 0, U, OP 01.
theorem test_decode_init :
    (decode ⟨0b00000001#8, []⟩).toOption = some .initMd5 ∧ (decode ⟨0b00000101#8, []⟩).toOption = some .initSha1 := by
  decide

-- V82, V83: OP 10, U 0, P 1 or 0.
theorem test_decode_update_md5 :
    (decode ⟨0b00001010#8, abc⟩).toOption = some (.updateMd5 (some abc)) ∧
    (decode ⟨0b00000010#8, abc⟩).toOption = some (.updateMd5 none) := by decide

-- V84, V85: OP 10, U 1.
theorem test_decode_update_sha1 :
    (decode ⟨0b00001110#8, abc⟩).toOption = some (.updateSha1 (some abc)) ∧
    (decode ⟨0b00000110#8, abc⟩).toOption = some (.updateSha1 none) := by decide

-- V86, V87: OP 11, U 0.
theorem test_decode_final_md5 :
    (decode ⟨0b00001011#8, []⟩).toOption = some (.finalMd5 true) ∧
    (decode ⟨0b00000011#8, []⟩).toOption = some (.finalMd5 false) := by decide

-- V88, V89: OP 11, U 1.
theorem test_decode_final_sha1 :
    (decode ⟨0b00001111#8, []⟩).toOption = some (.finalSha1 true) ∧
    (decode ⟨0b00000111#8, []⟩).toOption = some (.finalSha1 false) := by decide

/-- The name under which a code is rejected, if it is. -/
def rejection (cc : BitVec 8) : Option DecodeError :=
  match decode ⟨cc, []⟩ with
  | .ok _ => none
  | .error e => some e

-- V90, V91: OP = 00.
theorem test_decode_rejects_op :
    [0x00, 0x04, 0x08, 0x0C].map rejection = List.replicate 4 (some .reservedOp) := by decide

-- V92, V93: INIT with P = 1.
theorem test_decode_rejects_init_operand : [0x09, 0x0D].map rejection = List.replicate 2 (some .initWithOperand) := by
  decide

-- V94, V95: RSV != 0.
theorem test_decode_rejects_rsv :
    [0x1A, 0x8B, 0xFF, 0x10].map rejection = List.replicate 4 (some .reservedBits) := by decide

-- spec/95_test_vectors.md section 7: of the 256 values exactly these are legal.
theorem test_ten_codes_are_legal :
    ((List.range 256).filter fun n => (rejection (BitVec.ofNat 8 n)).isNone) =
      [0x01, 0x02, 0x03, 0x05, 0x06, 0x07, 0x0A, 0x0B, 0x0E, 0x0F] := by decide +kernel

-- R55, the codes of UPDATE with P = 1 and FINAL with P = 0.
theorem test_encode :
    encode (.updateSha1 (some abc)) = ⟨0x0E, abc⟩ ∧ encode (.finalMd5 false) = ⟨0x03, []⟩ ∧
    encode .initSha1 = ⟨0x05, []⟩ := by decide

-- The opcode table's match values.
theorem test_decodeTableWord :
    decodeTableWord 8 0x01 = some .initMd5 ∧ decodeTableWord 8 0x0F = some (.finalSha1 true) ∧
    decodeTableWord 8 0x0A = some (.updateMd5 (some [])) ∧ decodeTableWord 8 0x00 = none := by decide

/-! ## Primitives: V19 -/

-- V19a to V19e.
theorem test_words :
    le32 0x61 0x62 0x63 0x80 = 0x80636261 ∧ be32 0x61 0x62 0x63 0x80 = 0x61626380 ∧
    le32 0x01 0x00 0x00 0x00 = 0x00000001 ∧ be32 0x01 0x00 0x00 0x00 = 0x01000000 ∧
    le32 0xFF 0xFF 0xFF 0xFF = 0xFFFFFFFF := by decide

-- V19f, V19g, V19h, V19k, V19l.
theorem test_bytes :
    leBytes 0x98500190 4 = [0x90, 0x01, 0x50, 0x98] ∧ beBytes 0xA9993E36 4 = [0xA9, 0x99, 0x3E, 0x36] ∧
    leBytes 0x1B8 8 = [0xB8, 0x01, 0, 0, 0, 0, 0, 0] ∧ beBytes 0x0000000100000000 8 = [0, 0, 0, 1, 0, 0, 0, 0] ∧
    leBytes 0xFFFFFFFFFFFFFFF8 8 = [0xF8, 0xFF, 0xFF, 0xFF, 0xFF, 0xFF, 0xFF, 0xFF] := by decide

-- V19n to V19q.
theorem test_rotl32 :
    rotl32 0x80000001 1 = 0x00000003 ∧ rotl32 0x67452301 5 = 0xE8A4602C ∧ rotl32 0xEFCDAB89 30 = 0x7BF36AE2 ∧
    rotl32 0x57CE06D8 7 = 0xE7036C2B := by decide

/-! ## Compressors -/

-- V29a, V29b: the block 00 01 02 .. 3f separates the byte orders.
theorem test_md5_compress_counting_block :
    (md5Compress md5Iv (block ((List.range 64).map (BitVec.ofNat 8)))).toList =
      [0x9144D9CA, 0xD901E4C9, 0x72FC5B38, 0x625FF51E] := by decide +kernel

theorem test_sha1_compress_counting_block :
    (sha1Compress sha1Iv (block ((List.range 64).map (BitVec.ofNat 8)))).toList =
      [0xB9AC757B, 0xBC297925, 0x2E227274, 0x06872F94, 0xCBEA56A1] := by decide +kernel

-- V25, V27: all ones; a feed-forward that does not wrap fails here.
theorem test_md5_compress_ones :
    (md5Compress (Vector.replicate 4 0xFFFFFFFF) (block (List.replicate 64 0xFF))).toList =
      [0x6CBA9129, 0x29FFD12A, 0x8B9BB7D3, 0xA9A0A3C1] := by decide +kernel

theorem test_sha1_compress_ones :
    (sha1Compress (Vector.replicate 5 0xFFFFFFFF) (block (List.replicate 64 0xFF))).toList =
      [0x3F48159B, 0x2DCE51FA, 0x8A1E930A, 0x02083B68, 0xEF70D6E8] := by decide +kernel

/-! ## Commands, one step each -/

-- V102: INIT.MD5 after reset.
theorem test_initMd5 :
    (after (exec .initMd5 State.reset)).map (fun t => (t.u0.life, t.u0.h.toList, t.u0.len, t.u1.life)) =
      some (.active, [0x67452301, 0xEFCDAB89, 0x98BADCFE, 0x10325476], 0, .absent) := by decide

-- V128: INIT.MD5 discards three pending bytes.
theorem test_initMd5_discards :
    (after (exec .initMd5 (unitIn .md5 .active 24 abc))).map (fun t => (t.u0.pbuf, t.u0.len, t.responses)) =
      some ([], 0, [⟨.ok, 0, none⟩]) := by decide +kernel

-- R71, R32.
theorem test_initSha1 :
    (after (exec .initSha1 State.reset)).map (fun t => (t.u1.life, t.u1.h.toList, t.u1.len, t.u0.life)) =
      some (.active, [0x67452301, 0xEFCDAB89, 0x98BADCFE, 0x10325476, 0xC3D2E1F0], 0, .absent) := by decide

-- V127: INIT.SHA1 on a Finalized unit.
theorem test_initSha1_restarts :
    (after (exec .initSha1 (unitIn .sha1 .finalized 0 []))).map (fun t => (t.u1.life, t.responses)) =
      some (.active, [⟨.ok, 0, none⟩]) := by decide

-- V107: the 64th zero byte completes a block.
theorem test_updateMd5_completes_block :
    (after (exec (.updateMd5 (some [0])) (unitIn .md5 .active 0x1F8 []))).map
      (fun t => (t.u0.h.toList, t.u0.len, t.u0.plen, t.responses)) =
      some ([0x031F1DAC, 0x6EA58ED0, 0x1FAB67B7, 0x74317791], 0x200, 0, [⟨.ok, 1, none⟩]) := by decide +kernel

-- V115: one byte too many.
theorem test_updateMd5_overflow :
    (after (exec (.updateMd5 (some [0])) (unitIn .md5 .active 0xFFFFFFFFFFFFFFF8 []))).map
      (fun t => (t.u0.life, t.u0.len, t.responses)) =
      some (.corrupted, 0xFFFFFFFFFFFFFFF8, [⟨.error .overflow, 0, none⟩]) := by decide +kernel

-- P2: the first chunk "a" of the SHA-1 program.
theorem test_updateSha1_buffers :
    (after (exec (.updateSha1 (some [0x61])) (unitIn .sha1 .active 0 []))).map
      (fun t => (t.u1.len, t.u1.pbuf, t.u1.h == sha1Iv, t.responses)) =
      some (0x8, [0x61], true, [⟨.ok, 0, none⟩]) := by decide +kernel

-- V100, for U1: no context.
theorem test_updateSha1_absent :
    (after (exec (.updateSha1 (some abc)) State.reset)).map (fun t => (t.u1 == State.reset.u1, t.responses)) =
      some (true, [⟨.error .nullInput, 0, none⟩]) := by decide +kernel

-- V5, V72's shape: FINAL.MD5 of "abc", wiped.
theorem test_finalMd5 :
    (after (exec (.finalMd5 true) (unitIn .md5 .active 24 abc))).map
      (fun t => (t.u0.life, t.u0.pbuf, t.responses.map fun r => (r.ncomp, r.digest.map hexDigest))) =
      some (.finalized, [], [(1, some "900150983cd24fb0d6963f7d28e17f72")]) := by decide +kernel

-- V104: no digest sink.
theorem test_finalMd5_null :
    (after (exec (.finalMd5 false) (unitIn .md5 .active 0 []))).map (fun t => (t.u0.life, t.responses)) =
      some (.active, [⟨.error .nullInput, 0, none⟩]) := by decide +kernel

-- V77: 56 pending bytes, two blocks.
theorem test_finalSha1_two_blocks :
    (after (exec (.finalSha1 true) (unitIn .sha1 .active 0x1C0 (alphabet 56)))).map
      (fun t => (t.u1.life, t.responses.map fun r => (r.ncomp, r.digest.map hexDigest))) =
      some (.finalized, [(2, some "45fe53c317500145812034ecf0061f12af48d782")]) := by decide +kernel

-- P2's second FINAL: StateError.
theorem test_finalSha1_again :
    (after (exec (.finalSha1 true) (unitIn .sha1 .finalized 0 []))).map (fun t => (t.u1.life, t.responses)) =
      some (.finalized, [⟨.error .stateError, 0, none⟩]) := by decide

/-! ## Padding, observation, the step, the notation -/

-- V75, V76: idx 55 and idx 56.
theorem test_padded_tail_55 :
    padTail (unitIn .sha1 .active 0x1B8 (alphabet 55)).u1 =
      alphabet 55 ++ [0x80, 0, 0, 0, 0, 0, 0, 0x01, 0xB8] := by decide +kernel

theorem test_padded_tail_56 :
    padTail (unitIn .md5 .active 0x1C0 (alphabet 56)).u0 =
      alphabet 56 ++ [0x80] ++ List.replicate 63 0 ++ [0xC0, 0x01, 0, 0, 0, 0, 0, 0] := by decide +kernel

-- V110: STATUS of U0 after FINAL; R28: STATUS of an Active U1.
theorem test_status :
    observe (unitIn .md5 .finalized 0 []) .md5 0x00 = 0x00000002 ∧
    observe (unitIn .sha1 .active 0 []) .sha1 0x00 = 0x00000005 := by decide

-- V125: the carry out of the low half. R28: LEN_LO and LEN_HI.
theorem test_len_halves :
    observe (unitIn .md5 .active 0x0000000100000000 []) .md5 0x01 = 0 ∧
    observe (unitIn .md5 .active 0x0000000100000000 []) .md5 0x02 = 1 := by decide

-- V126: an illegal code.
theorem test_step_illegal :
    (after (step (State.reset.withInbox [.command ⟨0x00, []⟩]))).map (fun t => (t.u0.life, t.responses)) =
      some (.absent, [⟨.error .illegalCommand, 0, none⟩]) := by decide

-- V80: the presented code is taken by the next step.
theorem test_step_withFetchWord :
    (after (step (State.reset.withFetchWord 8 0x01))).map (fun t => (t.u0.life, t.inbox)) = some (.active, []) := by
  decide

-- R33, R135: the reset event.
theorem test_step_reset :
    (after (step ((unitIn .sha1 .corrupted 0x10 abc).withInbox [.reset]))).map (fun t => t.u1) =
      some (HashUnit.reset .sha1) := by decide +kernel

-- R66 and P1, P4.
theorem test_text :
    frameText ⟨0x0A, abc⟩ = "UPDATE.MD5 " ++ bytesText abc ∧ frameText ⟨0x02, []⟩ = "UPDATE.MD5 NULL" ∧
    frameText ⟨0x1A, []⟩ = "ILLEGAL 0x1A" ∧ responseText ⟨.error .nullInput, 0, none⟩ = "NullInputError NCOMP=0" := by
  decide +kernel

/-! ## Witnesses: concrete states and operands that meet the hypotheses of each statement -/

theorem witness_DecodeEncode :
    Instr.wf .initMd5 = true ∧ Instr.wf .initSha1 = true ∧ Instr.wf (.updateMd5 (some abc)) = true ∧
    Instr.wf (.updateSha1 none) = true ∧ Instr.wf (.finalMd5 false) = true ∧ Instr.wf (.finalSha1 true) = true := by
  decide

theorem witness_DecodeEncode_longest : Instr.wf (.updateSha1 (some (List.replicate (2 ^ 64 - 1) 0))) = true :=
  longest_fits

theorem witness_EncodeDecode :
    decode ⟨0x0A, abc⟩ = .ok (.updateMd5 (some abc)) ∧ Frame.wf ⟨0x0A, abc⟩ = true ∧
    decode ⟨0x05, abc⟩ = .ok .initSha1 ∧ Frame.wf ⟨0x05, abc⟩ = true := ⟨rfl, rfl, rfl, rfl⟩

theorem witness_StepRunsDecodedCommand :
    (State.reset.withInbox [.command ⟨0x0E, abc⟩]).inbox = [.command ⟨0x0E, abc⟩] ∧
    decode ⟨0x0E, abc⟩ = .ok (.updateSha1 (some abc)) := ⟨rfl, rfl⟩

/-- One code for each cause of R57. -/
theorem witness_IllegalCodeChangesNothing :
    (State.reset.withInbox [.command ⟨0x10, []⟩]).inbox = [.command ⟨0x10, []⟩] ∧ ccRsv 0x10 ≠ 0 ∧
    ccOp 0x0C = 0b00#2 ∧ (ccOp 0x09 = 0b01#2 ∧ ccP 0x09 = true) := by decide

theorem witness_IdleStepKeepsState : State.reset.inbox = [] := rfl

theorem witness_ResetEventClearsUnits :
    ((unitIn .md5 .active 24 abc).withInbox [.reset]).inbox = [.reset] := rfl

theorem witness_QueuedCommandsRunInOrder :
    (∀ i ∈ [Instr.initMd5, .updateMd5 (some abc)], i.wf = true) ∧
    (State.reset.withInbox [.command ⟨0x01, []⟩, .command ⟨0x0A, abc⟩, .reset]).inbox =
      [Instr.initMd5, .updateMd5 (some abc)].map (fun i => Transaction.command (encode i)) ++ [.reset] := by decide

/-- V116 and V125: the largest count with nothing more, and a carry into the high half. -/
theorem witness_UpdateAbsorbs :
    ((unitIn .md5 .active 0xFFFFFFFFFFFFFFF8 []).unit .md5).life = .active ∧
    ((unitIn .md5 .active 0xFFFFFFFFFFFFFFF8 []).unit .md5).len.toNat + 8 * ([] : List Byte).length < 2 ^ 64 ∧
    ((unitIn .sha1 .active 0x00000000FFFFFFF8 []).unit .sha1).life = .active ∧
    ((unitIn .sha1 .active 0x00000000FFFFFFF8 []).unit .sha1).len.toNat + 8 * [0x00#8].length < 2 ^ 64 := by decide

theorem witness_EmptyUpdateChangesNothing : ((unitIn .sha1 .active 24 abc).unit .sha1).life = .active := by decide

/-- V115: the smallest operand that overflows. -/
theorem witness_OverflowCorruptsOnlyLife :
    ((unitIn .md5 .active 0xFFFFFFFFFFFFFFF8 []).unit .md5).life = .active ∧
    2 ^ 64 ≤ ((unitIn .md5 .active 0xFFFFFFFFFFFFFFF8 []).unit .md5).len.toNat + 8 * [0x00#8].length := by decide

/-- V118: 2^61 bytes into a fresh context. -/
theorem witness_OverflowCorruptsOnlyLife_long :
    ((unitIn .sha1 .active 0 []).unit .sha1).life = .active ∧ 2 ^ 61 ≤ (List.replicate (2 ^ 61) 0x00#8).length :=
  ⟨rfl, Nat.le_of_eq (List.length_replicate ..).symm⟩

/-- The causes of R119: no context; a context but no operand. INIT answers a next state. -/
theorem witness_NullInputErrorCauses :
    (State.reset.unit .md5).life = .absent ∧ ((unitIn .md5 .finalized 0 []).unit .md5).life ≠ .absent ∧
    exec (.init .md5) State.reset = .next (initUnit .md5 State.reset) := ⟨rfl, by decide, rfl⟩

/-- The causes of R120. -/
theorem witness_StateErrorCauses :
    ((unitIn .md5 .finalized 0 []).unit .md5).life = .finalized ∧
    ((unitIn .sha1 .corrupted 0 []).unit .sha1).life = .corrupted ∧ (some abc : Option (List Byte)) ≠ none := by decide

/-- A frame for each line of the priority list of R123. -/
theorem witness_ErrorPriority :
    (State.reset.withInbox [.command ⟨0x00, []⟩]).inbox = [.command ⟨0x00, []⟩] ∧ (0x00#8) ∉ legalCodes ∧
    (0x01#8 ∈ legalCodes ∧ ccOp 0x01 = 0b01#2) ∧
    (0x0A#8 ∈ legalCodes ∧ (State.reset.unit .md5).life = .absent) ∧
    (0x02#8 ∈ legalCodes ∧ ccP 0x02 = false ∧ ((unitIn .md5 .finalized 0 []).unit .md5).life ≠ .absent) ∧
    (0x0B#8 ∈ legalCodes ∧ ccP 0x0B = true ∧ ((unitIn .md5 .corrupted 0 []).unit .md5).life = .corrupted) ∧
    (ccOp 0x0A = 0b10#2 ∧ ccP 0x0A = true ∧
      2 ^ 64 ≤ ((unitIn .md5 .active 0xFFFFFFFFFFFFFFF8 []).unit .md5).len.toNat + 8 * [0x00#8].length) := by decide

/-- A failing command for each error a command can raise. -/
theorem witness_FailingCommandHasNoOtherEffect :
    (after (exec (.updateMd5 (some abc)) State.reset)).map (·.responses) =
      some ([] ++ [⟨.error .nullInput, 0, none⟩]) ∧
    (after (exec (.finalSha1 true) (unitIn .sha1 .corrupted 0 []))).map (·.responses) =
      some ([] ++ [⟨.error .stateError, 0, none⟩]) ∧
    (after (exec (.updateSha1 (some [0])) (unitIn .sha1 .active 0xFFFFFFFFFFFFFFF8 []))).map (·.responses) =
      some ([] ++ [⟨.error .overflow, 0, none⟩]) := by decide +kernel

theorem witness_CorruptedIsSticky :
    (((unitIn .md5 .corrupted 0x10 abc).unit .md5).life = .corrupted ∧
      ∃ operand, Instr.updateMd5 (some abc) = .update .md5 operand) ∧
    (((unitIn .sha1 .finalized 0 []).unit .sha1).life = .finalized ∧
      ∃ sink, Instr.finalSha1 false = .final .sha1 sink) := ⟨⟨rfl, _, rfl⟩, rfl, _, rfl⟩

/-- A step from a Corrupted unit, and the step that makes one. -/
theorem witness_CorruptedIsSticky_steps :
    (after (step ((unitIn .md5 .corrupted 0x10 abc).withInbox [.command ⟨0x0B, []⟩]))).map (fun t => t.u0.life) =
      some .corrupted ∧
    (((unitIn .sha1 .active 0xFFFFFFFFFFFFFFF8 []).unit .sha1).life = .active ∧
      2 ^ 64 ≤ ((unitIn .sha1 .active 0xFFFFFFFFFFFFFFF8 []).unit .sha1).len.toNat + 8 * [0x00#8].length) := by
  decide +kernel

/-- The fill on either side of the boundary of R109. -/
theorem witness_PaddingShape :
    (unitIn .md5 .active 0x1B8 (alphabet 55)).u0.plen = 55 ∧ (unitIn .sha1 .active 0x1C0 (alphabet 56)).u1.plen = 56 := by
  decide

/-- FINAL with 55 and with 56 pending bytes. -/
theorem witness_FinalDeliversDigest :
    ((unitIn .md5 .active 0x1B8 (alphabet 55)).unit .md5).life = .active ∧
    ((unitIn .sha1 .active 0x1C0 (alphabet 56)).unit .sha1).life = .active := ⟨rfl, rfl⟩

theorem witness_WipeIsObservable :
    ((unitIn .sha1 .active 24 abc).unit .sha1).life = .active ∧
    ((0x93 : BitVec 8) ≠ 0 ∧ 0x13 < DL .sha1) ∧
    ((0x94 : BitVec 8) ≠ 0 ∧ ¬(0x80 ≤ (0x94 : BitVec 8).toNat ∧ (0x94 : BitVec 8).toNat < 0x80 + DL .sha1)) := by decide

/-- The block of the empty message (V20) ends in the field of length 0; that of 55 bytes in the field of V74. -/
theorem witness_LengthFieldWords :
    (alphabet 55 ++ [0x80]).length = 56 ∧
    (block (alphabet 55 ++ [0x80] ++ [0xB8, 0x01, 0, 0, 0, 0, 0, 0])).toList =
      (alphabet 55 ++ [0x80]) ++ bytesOfNat .md5 (0x1B8 : Count).toNat 8 ∧
    (block (alphabet 55 ++ [0x80] ++ [0, 0, 0, 0, 0, 0, 0x01, 0xB8])).toList =
      (alphabet 55 ++ [0x80]) ++ bytesOfNat .sha1 (0x1B8 : Count).toNat 8 := by decide +kernel

theorem witness_ObservationReadHasNoSideEffect :
    ((unitIn .md5 .active 24 abc).withInbox [.observe .md5 0x43]).inbox = [.observe .md5 0x43] := rfl

/-- The edges of each range of selectors (R28), and the residue boundary (R22). -/
theorem witness_ObservationSelectors :
    ((0x07 : BitVec 8).toNat = 0x04 + 3 ∧ 3 < NW .md5) ∧ ((0x08 : BitVec 8).toNat = 0x04 + 4 ∧ 4 < NW .sha1) ∧
    ((0x42 : BitVec 8).toNat = 0x40 + 2 ∧ ((unitIn .md5 .active 24 abc).unit .md5).isResidue 2 = false) ∧
    ((0x43 : BitVec 8).toNat = 0x40 + 3 ∧ ((unitIn .md5 .active 24 abc).unit .md5).isResidue 3 = true) ∧
    ((0x7F : BitVec 8).toNat = 0x40 + 63 ∧ ((unitIn .md5 .finalized 0 []).unit .md5).isResidue 63 = false) ∧
    ((0x8F : BitVec 8).toNat = 0x80 + 15 ∧ 15 < DL .md5) ∧ ((0x93 : BitVec 8).toNat = 0x80 + 19 ∧ 19 < DL .sha1) ∧
    (0x04 + NW .md5 ≤ (0x08 : BitVec 8).toNat ∧ (0x3F : BitVec 8).toNat < 0x40) ∧
    (0x80 + DL .md5 ≤ (0x90 : BitVec 8).toNat) ∧ (0x80 + DL .sha1 ≤ (0x94 : BitVec 8).toNat) := by decide

theorem witness_RepeatedReadReturnsSameValue :
    ((unitIn .md5 .active 24 abc).withInbox [.observe .md5 0x42, .observe .md5 0x42]).inbox =
      [.observe .md5 0x42, .observe .md5 0x42] ∧
    (∀ i, i < 64 → (0x42 : BitVec 8).toNat = 0x40 + i →
      (((unitIn .md5 .active 24 abc).withInbox [.observe .md5 0x42, .observe .md5 0x42]).unit .md5).isResidue i = false) := by
  decide

/-- The units after reset meet the invariant. -/
theorem unit_reset_inv (u : UnitId) : (HashUnit.reset u).Inv :=
  ⟨rfl, fun _ => rfl, fun h => absurd h (by decide : Life.absent ≠ .finalized)⟩

theorem witness_StepKeepsInvariant :
    (State.reset.withInbox [.command ⟨0x01, []⟩]).Inv ∧
    step (State.reset.withInbox [.command ⟨0x01, []⟩]) = .next (initUnit .md5 State.reset) :=
  ⟨⟨fun u => by cases u <;> exact unit_reset_inv _, fun _ h => absurd h List.not_mem_nil⟩, rfl⟩

/-- The lifecycle flag of a unit before a step and after it. -/
def lifeChange (s : State) (u : UnitId) : Option (Life × Life) :=
  (after (step s)).map fun t => ((s.unit u).life, (t.unit u).life)

/-- One step for each of the four kinds of transition of R24. -/
theorem witness_LifecycleTransitions :
    lifeChange ((unitIn .sha1 .active 0 []).withInbox [.reset]) .sha1 = some (.active, .absent) ∧
    lifeChange ((unitIn .sha1 .corrupted 0 []).withInbox [.command ⟨0x05, []⟩]) .sha1 = some (.corrupted, .active) ∧
    lifeChange ((unitIn .md5 .active 0 []).withInbox [.command ⟨0x0B, []⟩]) .md5 = some (.active, .finalized) ∧
    lifeChange ((unitIn .md5 .active 0xFFFFFFFFFFFFFFF8 []).withInbox [.command ⟨0x0A, [0]⟩]) .md5 =
      some (.active, .corrupted) := by decide +kernel

/-- FINAL writes DOUT (V109). -/
theorem witness_DoutWrittenOnlyByFinalAndReset :
    (after (step ((unitIn .md5 .active 0 []).withInbox [.command ⟨0x0B, []⟩]))).map (fun t => hexDigest t.u0.dout.toList) =
      some "d41d8cd98f00b204e9800998ecf8427e" ∧
    hexDigest (unitIn .md5 .active 0 []).u0.dout.toList ≠ "d41d8cd98f00b204e9800998ecf8427e" := by decide +kernel

/-- A state whose DOUT a reset changes. -/
theorem witness_DoutWrittenOnlyByReset :
    let s : State := { State.reset with u0 := { HashUnit.reset .md5 with dout := Vector.replicate 16 1 }, inbox := [.reset] }
    (after (step s)).map (fun t => t.u0.dout == s.u0.dout) = some false := by decide +kernel

/-- INIT, FINAL and reset each lower a count. -/
theorem witness_CountNeverDecreases :
    (after (step ((unitIn .md5 .active 24 abc).withInbox [.command ⟨0x01, []⟩]))).map (fun t => decide (t.u0.len.toNat < 24)) =
      some true ∧
    (after (step ((unitIn .md5 .active 24 abc).withInbox [.command ⟨0x0B, []⟩]))).map (fun t => decide (t.u0.len.toNat < 24)) =
      some true ∧
    (after (step ((unitIn .md5 .active 24 abc).withInbox [.reset]))).map (fun t => decide (t.u0.len.toNat < 24)) =
      some true := by decide +kernel

/-- Two contexts that differ in a residue byte alone. -/
theorem witness_CommandDependsOnItsUnitOnly :
    ((unitIn .md5 .active 24 abc).unit .md5).AgreeOnContext ((unitIn .md5 .active 24 (abc ++ [0xFF])).unit .md5) ∧
    (unitIn .md5 .active 24 abc).u0.buf ≠ (unitIn .md5 .active 24 (abc ++ [0xFF])).u0.buf :=
  ⟨⟨rfl, rfl, rfl, by decide +kernel⟩, by decide +kernel⟩

theorem witness_CommandsToDifferentUnitsCommute : (Instr.initMd5).unit ≠ (Instr.finalSha1 true).unit := by decide

/-- Up to the last count there is. -/
theorem witness_TwoUpdatesEqualOne :
    ((unitIn .sha1 .active 0xFFFFFFFFFFFFFFE8 []).unit .sha1).life = .active ∧
    ((unitIn .sha1 .active 0xFFFFFFFFFFFFFFE8 []).unit .sha1).len.toNat + 8 * ([0x00#8].length + [0x01#8].length) <
      2 ^ 64 := by decide

theorem witness_ContextHoldsMessage :
    ((unitIn .md5 .active 24 abc).unit .md5).Holds abc ∧ 8 * (abc ++ [0x00#8]).length < 2 ^ 64 :=
  ⟨⟨rfl, by decide +kernel, by decide, by decide +kernel⟩, by decide⟩

/-- Chunks that a block boundary does not respect, one of them empty. -/
theorem witness_ChunkedHashIsHashOfMessage : 8 * ([alphabet 55, [], alphabet 10].flatten).length < 2 ^ 64 := by decide

theorem witness_InvocationCounts :
    8 * ([alphabet 55, [], alphabet 10].flatten).length < 2 ^ 64 ∧ 8 * (([] : List (List Byte)).flatten).length < 2 ^ 64 := by
  decide

theorem witness_ConversionPrimitives : 0xFFFFFFFFFFFFFFF8 < 2 ^ (8 * 8) ∧ 0 < 8 ∧ 7 < 8 := by decide

theorem witness_CompressorsFeedForward :
    md5Iv.toList = [0x67452301#32, 0xEFCDAB89#32, 0x98BADCFE#32, 0x10325476#32] ∧
    sha1Iv.toList = [0x67452301#32, 0xEFCDAB89#32, 0x98BADCFE#32, 0x10325476#32, 0xC3D2E1F0#32] := ⟨rfl, rfl⟩

/-! The index bounds of the statements about single words, at both ends. -/

theorem witness_SerializedDigestBytes : (0 < 4 ∧ 3 < 4) ∧ (0 < 5 ∧ 4 < 5) := by decide

theorem witness_Md5FunctionsBitwise : (0 < 32 ∧ 31 < 32) ∧ (0 < 64 ∧ 63 < 64) := by decide

/-- Every group, and the word each of them takes last. -/
theorem witness_Md5WordOrderAndRotations :
    (3 < 4 ∧ 15 < 16) ∧ md5K 15 = 15 ∧ md5K 31 = 12 ∧ md5K 47 = 2 ∧ md5K 63 = 9 := by decide

theorem witness_Md5StepRotates : 0 < 64 ∧ 63 < 64 := by decide

theorem witness_Sha1FunctionsBitwise : (0 < 32 ∧ 31 < 32) ∧ (0 < 80 ∧ 79 < 80) := by decide

theorem witness_Sha1ScheduleRecurrence : (0 < 16 ∧ 15 < 16) ∧ (16 ≤ 16 ∧ 16 < 80) ∧ (16 ≤ 79 ∧ 79 < 80) := by decide

theorem witness_Sha1RoundRotates : 0 < 80 ∧ 79 < 80 := by decide

end Sys2Proof.Tests
end

/-! The state of the units (spec/10_state.md): what a command does to its unit and answers, said once as a relation
(`UnitEffect`), what a step does to one unit, and the statements that follow from it; then the observation port and the
message a context holds. -/

namespace Sys2Proof.Proofs

open Sys2Proof.Machine

/-! ## What a command does to its unit -/

/-- `UnitEffect c i c' r`: the command `i`, addressed to unit `u` while its context is `c`, leaves the context `c'` and
answers `r`. One constructor for each way a command can end. -/
inductive UnitEffect {u : UnitId} (c : HashUnit u) : Instr → HashUnit u → Response → Prop where
  /-- INIT starts the context (spec/40_context_commands.md R70, R71). -/
  | init : UnitEffect c (.init u) { c with h := initialH u, len := 0, life := .active } ⟨.ok, 0, none⟩
  /-- UPDATE fails in `check` (R69). -/
  | updateRejected (operand : Option (List Byte)) (e : CommandError) (fails : check c.life operand.isSome = some e) :
      UnitEffect c (.update u operand) c ⟨.error e, 0, none⟩
  /-- FINAL fails in `check` (R69). -/
  | finalRejected (sink : Bool) (e : CommandError) (fails : check c.life sink = some e) :
      UnitEffect c (.final u sink) c ⟨.error e, 0, none⟩
  /-- UPDATE overflows the counter (R75). -/
  | overflowed (data : List Byte) (active : c.life = .active) (excess : 2 ^ 64 ≤ c.len.toNat + 8 * data.length) :
      UnitEffect c (.update u (some data)) { c with life := .corrupted } ⟨.error .overflow, 0, none⟩
  /-- UPDATE absorbs its operand (R72). -/
  | absorbed (data : List Byte) (active : c.life = .active)
      (fits : c.len.toNat + 8 * data.length < 2 ^ 64) :
      UnitEffect c (.update u (some data)) (absorb c data).1 ⟨.ok, BitVec.ofNat 64 (absorb c data).2.length, none⟩
  /-- FINAL delivers the digest (spec/43_padding_finalizer.md R117). -/
  | finalized (active : c.life = .active) :
      UnitEffect c (.final u true) (finalizedUnit c)
        ⟨.ok, BitVec.ofNat 64 (blocksOf (padTail c)).length, some (finalizedUnit c).dout.toList⟩

/-- `t` is `s` after one command to unit `u`, the trace apart: the unit is now `c`, there is one more response `r`, and
what is outside the unit is as it was. -/
structure CommandDone (u : UnitId) (s t : State) (c : HashUnit u) (r : Response) : Prop where
  own : t.unit u = c
  response : t.responses = s.responses ++ [r]
  outside : SameOutside u s t

theorem commandDone_respond (u : UnitId) (s : State) (c : HashUnit u) (blks : List Block) (r : Response) :
    CommandDone u s (((s.setUnit u c).emit u blks).respond r) c r where
  own := by simp
  response := by simp
  outside := sameOutside_of_setUnit u s c blks r

theorem commandDone_raise (u : UnitId) (s : State) (e : CommandError) :
    CommandDone u s (raise e s) (s.unit u) ⟨.error e, 0, none⟩ where
  own := raise_unit ..
  response := raise_responses ..
  outside := sameOutside_raise u s e

theorem updateUnit_effect (u : UnitId) (operand : Option (List Byte)) (s : State) :
    ∃ c r, UnitEffect (s.unit u) (.update u operand) c r ∧ CommandDone u s (updateUnit u operand s) c r := by
  obtain ⟨e, hc, he⟩ | ⟨data, rfl, ha, ho, he⟩ | ⟨data, rfl, ha, ho, he⟩ := updateUnit_cases (u := u) (s := s) operand
  · exact ⟨_, _, .updateRejected operand e hc, he ▸ commandDone_raise u s e⟩
  · refine ⟨_, _, .overflowed data ha ho, ?_⟩
    rw [he, raise_eq_respond, ← emit_nil (s.setUnit u _) u]
    exact commandDone_respond u s _ _ _
  · exact ⟨_, _, .absorbed data ha ho, he ▸ commandDone_respond u s _ _ _⟩

theorem finalUnit_effect (u : UnitId) (sink : Bool) (s : State) :
    ∃ c r, UnitEffect (s.unit u) (.final u sink) c r ∧ CommandDone u s (finalUnit u sink s) c r := by
  obtain ⟨e, hc, he⟩ | ⟨rfl, ha, he⟩ := finalUnit_cases (u := u) (s := s) sink
  · exact ⟨_, _, .finalRejected sink e hc, he ▸ commandDone_raise u s e⟩
  · exact ⟨_, _, .finalized ha, he ▸ commandDone_respond u s _ _ _⟩

/-- Every command addressed to unit `u` ends in one of the ways of `UnitEffect`. -/
theorem exec_effect {i : Instr} {s t : State} (h : exec i s = .next t) :
    ∃ c r, UnitEffect (s.unit i.unit) i c r ∧ CommandDone i.unit s t c r := by
  generalize hu : i.unit = u
  obtain hi | ⟨operand, hi⟩ | ⟨sink, hi⟩ := instr_cases i <;> rw [hu] at hi <;> subst hi
  · rw [exec_init] at h
    cases h
    exact ⟨_, _, .init, by simpa [initUnit] using commandDone_respond u s _ [] _⟩
  · rw [exec_update] at h
    cases h
    exact updateUnit_effect u operand s
  · rw [exec_final] at h
    cases h
    exact finalUnit_effect u sink s

/-! ## What a step does to one unit, and what it answers -/

/-- A step leaves a unit as it was, or it took the reset event, or it ran a command addressed to the unit. -/
theorem step_unit_cases {s t : State} (u : UnitId) (h : step s = .next t) :
    t.unit u = s.unit u ∨
    ((∃ rest, s.inbox = .reset :: rest) ∧ t.unit u = HashUnit.reset u) ∨
    (∃ f rest i r, s.inbox = .command f :: rest ∧ decode f = .ok i ∧ UnitEffect (s.unit u) i (t.unit u) r ∧
      t.responses = s.responses ++ [r]) := by
  obtain ⟨-, hs⟩ | ⟨rest, hi, hs⟩ | ⟨v, sel, rest, -, hs⟩ | ⟨f, rest, e, -, -, hs⟩ | ⟨f, rest, i, hi, hd, hs⟩ :=
    step_cases s <;> rw [hs] at h
  · cases h; exact .inl rfl
  · cases h; exact .inr (.inl ⟨⟨rest, hi⟩, resetUnits_unit ..⟩)
  · cases h; exact .inl (by simp)
  · cases h; exact .inl (by simp)
  · obtain ⟨c, r, he, hdone⟩ := exec_effect h
    by_cases hu : u = i.unit
    · subst hu
      rw [take_unit, ← hdone.own] at he
      exact .inr (.inr ⟨f, rest, i, r, hi, hd, he, hdone.response⟩)
    · exact .inl ((hdone.outside.other u hu).trans (take_unit ..))

/-- A bare error response has the form of spec/30_encoding.md R61. -/
theorem wellFormed_error (e : CommandError) : Response.WellFormed ⟨.error e, 0, none⟩ :=
  ⟨fun _ => ⟨rfl, rfl⟩, fun _ h => nomatch h⟩

/-- A successful response without a digest has the form of R61. -/
theorem wellFormed_ok (n : BitVec 64) : Response.WellFormed ⟨.ok, n, none⟩ :=
  ⟨fun h => absurd rfl h, fun _ h => nomatch h⟩

/-- A successful response with the output register of a unit has the form of R61. -/
theorem wellFormed_digest {u : UnitId} (n : BitVec 64) (dout : Vector Byte (DL u)) :
    Response.WellFormed ⟨.ok, n, some dout.toList⟩ := by
  refine ⟨fun h => absurd rfl h, fun d h => ?_⟩
  cases h
  cases u
  · exact .inl (Vector.length_toList)
  · exact .inr (Vector.length_toList)

theorem UnitEffect.response_wellFormed {u : UnitId} {c c' : HashUnit u} {i : Instr} {r : Response}
    (h : UnitEffect c i c' r) : r.WellFormed := by
  cases h with
  | init => exact wellFormed_ok 0
  | updateRejected => exact wellFormed_error _
  | finalRejected => exact wellFormed_error _
  | overflowed => exact wellFormed_error _
  | absorbed => exact wellFormed_ok _
  | finalized => exact wellFormed_digest _ _

/-- A step adds at most one response, and that one is well-formed. -/
theorem step_response_cases {s t : State} (h : step s = .next t) :
    t.responses = s.responses ∨ ∃ r, r.WellFormed ∧ t.responses = s.responses ++ [r] := by
  obtain ⟨-, hs⟩ | ⟨rest, -, hs⟩ | ⟨v, sel, rest, -, hs⟩ | ⟨f, rest, e, -, -, hs⟩ | ⟨f, rest, i, -, -, hs⟩ :=
    step_cases s <;> rw [hs] at h
  · cases h; exact .inl rfl
  · cases h; exact .inl rfl
  · cases h; exact .inl rfl
  · cases h; exact .inr ⟨_, wellFormed_error _, raise_responses ..⟩
  · obtain ⟨c, r, he, hdone⟩ := exec_effect h
    exact .inr ⟨r, he.response_wellFormed, hdone.response⟩

/-! ## The invariant -/

theorem inv_reset (u : UnitId) : (HashUnit.reset u).Inv where
  count_bytes := rfl
  absent_is_reset := fun _ => rfl
  finalized_is_wiped := fun h => nomatch h

/-- In an Active or Corrupted unit the invariant asks for whole bytes only. -/
theorem inv_of_life {u : UnitId} {c : HashUnit u} (hl : c.life = .active ∨ c.life = .corrupted)
    (hc : c.len.toNat % 8 = 0) : c.Inv where
  count_bytes := hc
  absent_is_reset := fun h => by simp [h] at hl
  finalized_is_wiped := fun h => by simp [h] at hl

theorem inv_finalizedUnit {u : UnitId} (c : HashUnit u) : (finalizedUnit c).Inv where
  count_bytes := rfl
  absent_is_reset := fun h => nomatch h
  finalized_is_wiped := fun _ => ⟨rfl, rfl, rfl⟩

/-- Absorbing bytes that fit adds 8 for each byte to the count. -/
theorem toNat_absorb_len {u : UnitId} {c : HashUnit u} {data : List Byte}
    (fits : c.len.toNat + 8 * data.length < 2 ^ 64) :
    (absorb c data).1.len.toNat = c.len.toNat + 8 * data.length := by
  rw [absorb_len, BitVec.toNat_add, BitVec.toNat_ofNat, Nat.add_mod_mod, Nat.mod_eq_of_lt fits]

theorem UnitEffect.keeps_inv {u : UnitId} {c c' : HashUnit u} {i : Instr} {r : Response}
    (h : UnitEffect c i c' r) (hc : c.Inv) : c'.Inv := by
  have hbytes := hc.count_bytes
  cases h with
  | init => exact inv_of_life (.inl rfl) rfl
  | updateRejected => exact hc
  | finalRejected => exact hc
  | overflowed => exact inv_of_life (.inr rfl) hbytes
  | absorbed data active fits =>
    refine inv_of_life (.inl ((absorb_life c data).trans active)) ?_
    rw [toNat_absorb_len fits]
    omega
  | finalized => exact inv_finalizedUnit c

/-- Settles O33: the units by the cases of a step on one unit, the responses by the form of the one that is added. -/
theorem stepKeepsInvariant : Obligations.StepKeepsInvariant := by
  intro s t hs h
  constructor
  case units =>
    intro u
    obtain hu | ⟨-, hu⟩ | ⟨f, rest, i, r, -, -, he, -⟩ := step_unit_cases u h
    · exact hu ▸ hs.units u
    · exact hu ▸ inv_reset u
    · exact he.keeps_inv (hs.units u)
  case answers =>
    obtain hr | ⟨r, hwf, hr⟩ := step_response_cases h <;> rw [hr]
    · exact hs.answers
    · exact List.forall_mem_append.mpr ⟨hs.answers, List.forall_mem_singleton.mpr hwf⟩

/-- Settles O32: both units are as after reset, and there is no response. -/
theorem resetMeetsInvariant : Obligations.ResetMeetsInvariant where
  units := fun u => by rw [reset_unit]; exact inv_reset u
  answers := fun _ h => absurd h List.not_mem_nil

/-- Settles O9: each unit is `HashUnit.reset`, whose registers are replicated zeros. -/
theorem resetValues : Obligations.ResetValues := by
  intro u
  rw [reset_unit]
  exact ⟨rfl, Vector.toList_replicate, rfl, Vector.toList_replicate, Vector.toList_replicate⟩

/-! ## What each field of a unit can be changed by -/

section
variable {u : UnitId} {c c' : HashUnit u} {i : Instr} {r : Response}

theorem UnitEffect.life_change (h : UnitEffect c i c' r) (hne : c'.life ≠ c.life) :
    (i = .init u ∧ c'.life = .active) ∨
    (i = .final u true ∧ c.life = .active ∧ c'.life = .finalized) ∨
    (∃ data, i = .update u (some data) ∧ 2 ^ 64 ≤ c.len.toNat + 8 * data.length ∧
      c.life = .active ∧ c'.life = .corrupted) := by
  cases h with
  | init => exact .inl ⟨rfl, rfl⟩
  | updateRejected => exact absurd rfl hne
  | finalRejected => exact absurd rfl hne
  | overflowed data active excess => exact .inr (.inr ⟨data, rfl, excess, active, rfl⟩)
  | absorbed data => exact absurd (absorb_life c data) hne
  | finalized active => exact .inr (.inl ⟨rfl, active, rfl⟩)

theorem UnitEffect.dout_change (h : UnitEffect c i c' r) (hne : c'.dout ≠ c.dout) :
    i = .final u true ∧ c.life = .active ∧ ∃ n, r = ⟨.ok, n, some c'.dout.toList⟩ := by
  cases h with
  | init => exact absurd rfl hne
  | updateRejected => exact absurd rfl hne
  | finalRejected => exact absurd rfl hne
  | overflowed => exact absurd rfl hne
  | absorbed data => exact absurd (absorb_dout c data) hne
  | finalized active => exact ⟨rfl, active, _, rfl⟩

theorem UnitEffect.len_decrease (h : UnitEffect c i c' r) (hlt : c'.len.toNat < c.len.toNat) :
    i = .init u ∨ (i = .final u true ∧ c.life = .active) := by
  cases h with
  | init => exact .inl rfl
  | updateRejected => exact absurd hlt (Nat.lt_irrefl _)
  | finalRejected => exact absurd hlt (Nat.lt_irrefl _)
  | overflowed => exact absurd hlt (Nat.lt_irrefl _)
  | absorbed data active fits =>
    rw [toNat_absorb_len fits] at hlt
    omega
  | finalized active => exact .inr ⟨rfl, active⟩

end

/-- Settles O34: the change of LIFE is a reset or one of the changes a command makes. -/
theorem lifecycleTransitions : Obligations.LifecycleTransitions := by
  intro s t u h hne
  obtain hu | ⟨hreset, hu⟩ | ⟨f, rest, i, r, hi, hd, he, -⟩ := step_unit_cases u h
  · exact absurd (congrArg _ hu) hne
  · exact .inl ⟨hreset, congrArg _ hu⟩
  · obtain ⟨rfl, ht⟩ | ⟨rfl, hs, ht⟩ | ⟨data, rfl, excess, hs, ht⟩ := he.life_change hne
    · exact .inr (.inl ⟨⟨f, rest, hi, hd⟩, ht⟩)
    · exact .inr (.inr (.inl ⟨⟨f, rest, hi, hd⟩, hs, ht⟩))
    · exact .inr (.inr (.inr ⟨⟨f, rest, data, hi, hd, excess⟩, hs, ht⟩))

/-- Settles O35: the only command that writes DOUT is a FINAL that succeeds. -/
theorem doutWrittenOnlyByFinalAndReset : Obligations.DoutWrittenOnlyByFinalAndReset := by
  intro s t u h hne
  obtain hu | ⟨hreset, -⟩ | ⟨f, rest, i, r, hi, hd, he, hr⟩ := step_unit_cases u h
  · exact absurd (congrArg _ hu) hne
  · exact .inl hreset
  · obtain ⟨rfl, hs, n, rfl⟩ := he.dout_change hne
    exact .inr ⟨f, rest, n, hi, hd, hs, hr⟩

/-- Settles O36: an UPDATE that is carried out only adds to the count. -/
theorem countNeverDecreases : Obligations.CountNeverDecreases := by
  intro s t u h hlt
  obtain hu | ⟨hreset, -⟩ | ⟨f, rest, i, r, hi, hd, he, -⟩ := step_unit_cases u h
  · rw [hu] at hlt
    exact absurd hlt (Nat.lt_irrefl _)
  · exact .inl hreset
  · obtain rfl | ⟨rfl, hs⟩ := he.len_decrease hlt
    · exact .inr ⟨f, rest, hi, .inl hd⟩
    · exact .inr ⟨f, rest, hi, .inr ⟨hd, hs⟩⟩

/-! ## The message a context holds -/

/-- A context just started holds the empty message. -/
theorem holds_nil_of_init {u : UnitId} (c : HashUnit u) :
    ({ c with h := initialH u, len := 0, life := .active } : HashUnit u).Holds [] where
  active := rfl
  chain := rfl
  count := rfl
  pending := pbuf_of_len_zero _ rfl

/-- Absorbing bytes appends them to the message: the blocks the appended bytes complete are those of the pending tail
and the bytes (`blocksOf_append`). -/
theorem holds_append_of_absorb {u : UnitId} {c : HashUnit u} {m data : List Byte} (hm : c.Holds m)
    (fits : c.len.toNat + 8 * data.length < 2 ^ 64) : (absorb c data).1.Holds (m ++ data) where
  active := (absorb_life c data).trans hm.active
  chain := by rw [absorb_h, hm.pending, hm.chain, blocksOf_append m data, List.foldl_append]
  count := by rw [toNat_absorb_len fits, hm.count, List.length_append, Nat.mul_add]
  pending := by rw [absorb_pbuf, hm.pending, ← tailOf_append]

/-- Settles O40: INIT by `holds_nil_of_init`, an UPDATE that fits by `holds_append_of_absorb`. -/
theorem contextHoldsMessage : Obligations.ContextHoldsMessage := by
  refine ⟨fun u s => ⟨_, exec_init u s, ?_⟩, fun u s m data hm hlen => ?_⟩
  · rw [initUnit, respond_unit, unit_setUnit_self]
    exact holds_nil_of_init _
  · have fits : (s.unit u).len.toNat + 8 * data.length < 2 ^ 64 := by
      rwa [hm.count, ← Nat.mul_add, ← List.length_append]
    refine ⟨_, exec_update u (some data) s, ?_⟩
    rw [updateUnit_of_ok hm.active fits, respond_unit, emit_unit, unit_setUnit_self]
    exact holds_append_of_absorb hm fits

/-! ## The observation port, selector by selector (spec/10_state.md R28) -/

theorem NW_le (u : UnitId) : NW u ≤ 5 := by cases u <;> decide

section
variable {u : UnitId} (c : HashUnit u) (free : Byte) {sel : BitVec 8}

theorem observeUnit_h {j : Nat} (hj : j < NW u) (hsel : sel.toNat = 0x04 + j) :
    c.h.toList[j]? = some (observeUnit c free sel) := by
  have hread : observeUnit c free sel = c.h.toList.getD j 0 := by
    simp only [observeUnit, hsel]
    rw [if_neg (by omega), if_neg (by omega), if_neg (by omega), if_pos (by omega), Nat.add_sub_cancel_left]
  rw [hread, List.getD_eq_getElem _ _ (by simpa using hj), List.getElem?_eq_getElem]

theorem observeUnit_buf {i : Nat} (hi : i < 64) (hsel : sel.toNat = 0x40 + i) :
    observeUnit c free sel = (if c.isResidue i then free else c.buf.toList.getD i 0).setWidth 32 := by
  have := NW_le u
  simp only [observeUnit, hsel]
  rw [if_neg (by omega), if_neg (by omega), if_neg (by omega), if_neg (by omega), if_pos (by omega),
    Nat.add_sub_cancel_left]

theorem observeUnit_dout {i : Nat} (hi : i < DL u) (hsel : sel.toNat = 0x80 + i) :
    observeUnit c free sel = (c.dout.toList.getD i 0).setWidth 32 := by
  have := NW_le u
  simp only [observeUnit, hsel]
  rw [if_neg (by omega), if_neg (by omega), if_neg (by omega), if_neg (by omega), if_neg (by omega),
    if_pos (by omega), Nat.add_sub_cancel_left]

theorem observeUnit_reserved
    (hsel : sel.toNat = 0x03 ∨ (0x04 + NW u ≤ sel.toNat ∧ sel.toNat < 0x40) ∨ 0x80 + DL u ≤ sel.toNat) :
    observeUnit c free sel = 0 := by
  have := NW_le u
  simp only [observeUnit]
  rw [if_neg (by omega), if_neg (by omega), if_neg (by omega), if_neg (by omega), if_neg (by omega),
    if_neg (by omega)]

end

/-- STATUS: LIFE in bits 1:0, the unit in bit 2, the rest 0. -/
theorem statusWord_fields (u : UnitId) (life : Life) :
    (statusWord u life).extractLsb' 0 2 = life.code ∧ (statusWord u life).getLsbD 2 = u.bit ∧
      (statusWord u life).extractLsb' 3 29 = 0 := by
  cases u <;> cases life <;> decide

theorem toNat_lenLo {u : UnitId} (c : HashUnit u) : c.lenLo.toNat = c.len.toNat % 2 ^ 32 := by
  rw [HashUnit.lenLo, BitVec.extractLsb'_toNat, Nat.shiftRight_zero]

theorem toNat_lenHi {u : UnitId} (c : HashUnit u) : c.lenHi.toNat = c.len.toNat / 2 ^ 32 := by
  have := c.len.isLt
  rw [HashUnit.lenHi, BitVec.extractLsb'_toNat, Nat.shiftRight_eq_div_pow]
  omega

/-- A byte read through the 32-bit port is the byte, and nothing above it. -/
theorem byte_of_read {l : List Byte} {i : Nat} {v : BitVec 32} (hi : i < l.length)
    (hv : v = (l.getD i 0).setWidth 32) : l[i]? = some (v.setWidth 8) ∧ v.toNat < 256 := by
  subst hv
  rw [List.getD_eq_getElem _ _ hi, List.getElem?_eq_getElem hi]
  exact ⟨by simp, by have := l[i].isLt; simp; omega⟩

/-- Settles O30, one selector range at a time. -/
theorem observationSelectors : Obligations.ObservationSelectors := by
  intro s u sel
  refine ⟨?status, ?lenLo, ?lenHi, ?h, ?buf, ?residue, ?dout, ?reserved⟩
  case status =>
    rintro rfl
    exact statusWord_fields u (s.unit u).life
  case lenLo =>
    rintro rfl
    exact toNat_lenLo (s.unit u)
  case lenHi =>
    rintro rfl
    exact toNat_lenHi (s.unit u)
  case h => exact fun j hj hsel => observeUnit_h _ _ hj hsel
  case buf =>
    intro i hi hsel hres
    refine byte_of_read (by simpa using hi) ?_
    rw [observe, observeUnit_buf _ _ hi hsel, hres, if_neg Bool.false_ne_true]
  case residue =>
    intro i hi hsel hres
    rw [observe, observeUnit_buf _ _ hi hsel, hres, if_pos rfl]
  case dout =>
    exact fun i hi hsel => byte_of_read (by simpa using hi) (observeUnit_dout _ _ hi hsel)
  case reserved =>
    exact fun hsel => observeUnit_reserved _ _ (hsel.imp_left fun h => by rw [h]; rfl)

end Sys2Proof.Proofs

/-! The memory rules (spec/20_memory.md): the conversion primitives and the length field as schedule words (R35 to R40),
commands taken one after another (R45, R47), commands and their units (R48), and observation reads (R51). -/

namespace Sys2Proof.Proofs

open Sys2Proof.Machine

/-! ## The conversion primitives (R35 to R38) -/

theorem toNat_le32 (s0 s1 s2 s3 : Byte) :
    (le32 s0 s1 s2 s3).toNat = s0.toNat + 2 ^ 8 * s1.toNat + 2 ^ 16 * s2.toNat + 2 ^ 24 * s3.toNat := by
  have := s0.isLt
  have := s1.isLt
  have := s2.isLt
  have := s3.isLt
  rw [le32, BitVec.toNat_ofNat, Nat.mod_eq_of_lt (by omega)]

/-- The two byte orders read the same four bytes from opposite ends. -/
theorem be32_eq_le32_reverse (s0 s1 s2 s3 : Byte) : be32 s0 s1 s2 s3 = le32 s3 s2 s1 s0 := by
  rw [be32, le32]
  congr 1
  omega

theorem toNat_getD_leBytes {v n i : Nat} (hi : i < n) : ((leBytes v n).getD i 0).toNat = v / 2 ^ (8 * i) % 256 := by
  simp [leBytes, hi, Nat.shiftRight_eq_div_pow]

theorem toNat_getD_beBytes {v n i : Nat} (hi : i < n) :
    ((beBytes v n).getD i 0).toNat = v / 2 ^ (8 * (n - 1 - i)) % 256 := by
  simp [beBytes, hi, Nat.shiftRight_eq_div_pow]

/-- Four bytes that are the base-256 digits of `v`, least significant first, decode to its low 32 bits. -/
theorem le32_of_digits {s0 s1 s2 s3 : Byte} (v : Nat) (h0 : s0.toNat = v % 256) (h1 : s1.toNat = v / 2 ^ 8 % 256)
    (h2 : s2.toNat = v / 2 ^ 16 % 256) (h3 : s3.toNat = v / 2 ^ 24 % 256) : le32 s0 s1 s2 s3 = BitVec.ofNat 32 v := by
  apply BitVec.eq_of_toNat_eq
  rw [toNat_le32, BitVec.toNat_ofNat]
  omega

/-- Four little-endian bytes in a row, from byte `4 * k`, are word k of the number, counted from the low end. -/
theorem le32_leBytes (v : Nat) {n k : Nat} (hk : 4 * k + 4 ≤ n) :
    le32 ((leBytes v n).getD (4 * k) 0) ((leBytes v n).getD (4 * k + 1) 0) ((leBytes v n).getD (4 * k + 2) 0)
      ((leBytes v n).getD (4 * k + 3) 0) = BitVec.ofNat 32 (v / 2 ^ (32 * k)) := by
  have hdigit (j : Nat) (hj : j < 4) :
      ((leBytes v n).getD (4 * k + j) 0).toNat = v / 2 ^ (32 * k) / 2 ^ (8 * j) % 256 := by
    rw [toNat_getD_leBytes (by omega), Nat.div_div_eq_div_mul, ← Nat.pow_add]
    congr 3
    omega
  exact le32_of_digits _ (by simpa using hdigit 0 (by omega)) (hdigit 1 (by omega)) (hdigit 2 (by omega))
    (hdigit 3 (by omega))

/-- Four big-endian bytes in a row, with `4 * k` bytes behind them, are word k of the number, counted from the low
end. -/
theorem be32_beBytes (v : Nat) {n i k : Nat} (hn : i + 4 + 4 * k = n) :
    be32 ((beBytes v n).getD i 0) ((beBytes v n).getD (i + 1) 0) ((beBytes v n).getD (i + 2) 0)
      ((beBytes v n).getD (i + 3) 0) = BitVec.ofNat 32 (v / 2 ^ (32 * k)) := by
  have hdigit (j : Nat) (hj : j < 4) :
      ((beBytes v n).getD (i + (3 - j)) 0).toNat = v / 2 ^ (32 * k) / 2 ^ (8 * j) % 256 := by
    rw [toNat_getD_beBytes (by omega), Nat.div_div_eq_div_mul, ← Nat.pow_add]
    congr 3
    omega
  rw [be32_eq_le32_reverse]
  exact le32_of_digits _ (by simpa using hdigit 0 (by omega)) (hdigit 1 (by omega)) (hdigit 2 (by omega))
    (hdigit 3 (by omega))

/-- A list of four bytes is its entries. -/
theorem eq_getD_of_length_four {l : List Byte} (h : l.length = 4) :
    l = [l.getD 0 0, l.getD 1 0, l.getD 2 0, l.getD 3 0] := by
  match l, h with
  | [_, _, _, _], _ => rfl

/-- Settles O43: the value of four bytes, the digits of a number, and the two round trips, each of which reads word 0 of
a number of one word. -/
theorem conversionPrimitives : Obligations.ConversionPrimitives := by
  refine ⟨fun s0 s1 s2 s3 => ⟨toNat_le32 .., ?valueBe⟩, ?bytes, fun w => ⟨?roundLe, ?roundBe⟩⟩
  case valueBe =>
    rw [be32_eq_le32_reverse, toNat_le32]
    omega
  case bytes =>
    intro v n _
    exact ⟨length_leBytes v n, length_beBytes v n, fun i hi => ⟨toNat_getD_leBytes hi, toNat_getD_beBytes hi⟩⟩
  case roundLe =>
    exact ⟨_, _, _, _, eq_getD_of_length_four (length_leBytes ..),
      by simpa using le32_leBytes w.toNat (n := 4) (k := 0) (by omega)⟩
  case roundBe =>
    exact ⟨_, _, _, _, eq_getD_of_length_four (length_beBytes ..),
      by simpa using be32_beBytes w.toNat (n := 4) (i := 0) (k := 0) (by omega)⟩

/-! ## The length field as schedule words (R39, R40) -/

theorem getD_blockWords (u : UnitId) (blk : Block) {k : Nat} (hk : k < 16) :
    (blockWords u blk).getD k 0 = wordOfBytes u (blk.toList.getD (4 * k) 0) (blk.toList.getD (4 * k + 1) 0)
      (blk.toList.getD (4 * k + 2) 0) (blk.toList.getD (4 * k + 3) 0) := by
  simp [blockWords, hk]

/-- The words of a block behind a front of `4 * m` bytes are made of the bytes that follow the front. -/
theorem getD_blockWords_of_append (u : UnitId) {blk : Block} {front field : List Byte} {m k : Nat}
    (hblk : blk.toList = front ++ field) (hfront : front.length = 4 * m) (hk : m + k < 16) :
    (blockWords u blk).getD (m + k) 0 = wordOfBytes u (field.getD (4 * k) 0) (field.getD (4 * k + 1) 0)
      (field.getD (4 * k + 2) 0) (field.getD (4 * k + 3) 0) := by
  have hbyte (j : Nat) : blk.toList.getD (4 * (m + k) + j) 0 = field.getD (4 * k + j) 0 := by
    rw [hblk, List.getD_append_right _ _ _ _ (by omega)]
    congr 1
    omega
  rw [getD_blockWords u blk hk, ← Nat.add_zero (4 * (m + k)), ← Nat.add_zero (4 * k)]
  simp only [Nat.add_assoc, hbyte]

/-- A 32-bit word of the count is the bits from `32 * k` on. -/
theorem ofNat_word_eq_extract (len : Count) (k : Nat) :
    BitVec.ofNat 32 (len.toNat / 2 ^ (32 * k)) = len.extractLsb' (32 * k) 32 := by
  rw [BitVec.extractLsb', Nat.shiftRight_eq_div_pow]

/-- The little-endian length field: word `14 + k` of its block is word k of the count. -/
theorem lengthField_md5 {len : Count} {front : List Byte} {blk : Block} {k : Nat} (hfront : front.length = 56)
    (hk : k < 2) (hblk : blk.toList = front ++ bytesOfNat .md5 len.toNat 8) :
    (blockWords .md5 blk).getD (14 + k) 0 = len.extractLsb' (32 * k) 32 := by
  rw [getD_blockWords_of_append .md5 hblk hfront (by omega), ← ofNat_word_eq_extract]
  exact le32_leBytes len.toNat (by omega)

/-- The big-endian length field: word `14 + j` of its block is word `1 - j` of the count. -/
theorem lengthField_sha1 {len : Count} {front : List Byte} {blk : Block} {j k : Nat} (hfront : front.length = 56)
    (hk : j + k = 1) (hblk : blk.toList = front ++ bytesOfNat .sha1 len.toNat 8) :
    (blockWords .sha1 blk).getD (14 + j) 0 = len.extractLsb' (32 * k) 32 := by
  rw [getD_blockWords_of_append .sha1 hblk hfront (by omega), ← ofNat_word_eq_extract]
  exact be32_beBytes len.toNat (by omega)

/-- Settles O28: words 14 and 15 are words 0 and 1 of the count in U0, words 1 and 0 in U1. -/
theorem lengthFieldWords : Obligations.LengthFieldWords := by
  intro len front hfront
  exact ⟨fun blk hblk => ⟨lengthField_md5 (k := 0) hfront (by omega) hblk,
      lengthField_md5 (k := 1) hfront (by omega) hblk⟩,
    fun blk hblk => ⟨lengthField_sha1 (j := 0) (k := 1) hfront rfl hblk,
      lengthField_sha1 (j := 1) (k := 0) hfront rfl hblk⟩⟩

/-! ## Commands taken one after another (R45, R47) -/

/-- Settles O5: the case of `step` for a legal frame. -/
theorem stepRunsDecodedCommand : Obligations.StepRunsDecodedCommand :=
  fun _ _ _ _ hs hd => step_command hs hd

theorem decode_encode (i : Instr) : decode (encode i) = .ok i := by
  cases i with
  | initMd5 => rfl
  | initSha1 => rfl
  | updateMd5 operand =>
    cases operand with
    | none => rfl
    | some data => exact decode_update (cc := ccOfFields true .md5 0b10#2) rfl rfl
  | updateSha1 operand =>
    cases operand with
    | none => rfl
    | some data => exact decode_update (cc := ccOfFields true .sha1 0b10#2) rfl rfl
  | finalMd5 sink => cases sink <;> rfl
  | finalSha1 sink => cases sink <;> rfl

/-- Queued commands run in their order: a command does not see what waits behind it (`exec_inbox`). -/
theorem run_queued (is : List Instr) (s : State) (rest : List Transaction)
    (hs : s.inbox = is.map (fun i => Transaction.command (encode i)) ++ rest) :
    core.run is.length s = execAll is { s with inbox := rest } := by
  induction is generalizing s with
  | nil =>
    obtain rfl : s.inbox = rest := hs
    rfl
  | cons i is ih =>
    obtain ⟨t, -, hexec⟩ := exec_inbox i s
    have hstep := (step_command hs (decode_encode i)).trans (hexec _)
    rw [List.length_cons, run_succ_of_next _ hstep, execAll_cons_of_next is (hexec rest)]
    exact ih _ rfl

/-- Settles O11 by `run_queued`; the bound on the operands' counts is not needed. -/
theorem queuedCommandsRunInOrder : Obligations.QueuedCommandsRunInOrder :=
  fun is s rest _ hs => run_queued is s rest hs

/-! ## Commands and their units (R48) -/

/-- The command `i`, whenever the context of its unit is `x`, leaves `c` there and answers `r`. -/
def Answers (i : Instr) (x c : HashUnit i.unit) (r : Response) : Prop :=
  ∀ s : State, s.unit i.unit = x → ∃ t, exec i s = .next t ∧ CommandDone i.unit s t c r

theorem exists_answers (i : Instr) (s : State) : ∃ c r, Answers i (s.unit i.unit) c r := by
  obtain ⟨c, blks, r, h⟩ := exec_form i s
  exact ⟨c, r, fun s' hs => ⟨_, h s' hs, commandDone_respond ..⟩⟩

/-- Two commands to different units: the second finds its unit as it was before the first. -/
theorem execAll_pair {i j : Instr} {s : State} {c : HashUnit i.unit} {d : HashUnit j.unit} {r r' : Response}
    (hne : i.unit ≠ j.unit) (hi : Answers i (s.unit i.unit) c r) (hj : Answers j (s.unit j.unit) d r') :
    ∃ t, execAll [i, j] s = .next t ∧ t.unit i.unit = c ∧ t.unit j.unit = d ∧
      t.responses = s.responses ++ [r, r'] := by
  obtain ⟨t₁, he₁, h₁⟩ := hi s rfl
  obtain ⟨t, he, h⟩ := hj t₁ (h₁.outside.other _ hne.symm)
  refine ⟨t, ?_, (h.outside.other _ hne).trans h₁.own, h.own, ?_⟩
  · rw [execAll_cons_of_next _ he₁, execAll_cons_of_next _ he, execAll_nil]
  · rw [h.response, h₁.response, List.append_assoc, List.singleton_append]

/-- There are two units. -/
theorem eq_or_eq_of_ne : ∀ {u v : UnitId}, u ≠ v → ∀ w, w = u ∨ w = v
  | .md5, .sha1, _, .md5 | .sha1, .md5, _, .sha1 => .inl rfl
  | .md5, .sha1, _, .sha1 | .sha1, .md5, _, .md5 => .inr rfl
  | .md5, .md5, h, _ | .sha1, .sha1, h, _ => absurd rfl h

/-- Settles O38: either order leaves in each unit what its own command leaves there. -/
theorem commandsToDifferentUnitsCommute : Obligations.CommandsToDifferentUnitsCommute := by
  intro i j s hne
  obtain ⟨c, r, hi⟩ := exists_answers i s
  obtain ⟨d, r', hj⟩ := exists_answers j s
  obtain ⟨t, ht, hti, htj, htr⟩ := execAll_pair hne hi hj
  obtain ⟨t', ht', htj', hti', htr'⟩ := execAll_pair hne.symm hj hi
  refine ⟨t, t', r, r', ht, ht', fun u => ?_, htr, htr'⟩
  obtain rfl | rfl := eq_or_eq_of_ne hne u
  · rw [hti, hti']
  · rw [htj, htj']

/-- `t` and `t'` come from `s` and `s'` by the same command to unit `u` as far as the host can tell: the same blocks
compressed, the same response, and contexts that agree. -/
def SameCommandDone (u : UnitId) (s s' t t' : State) : Prop :=
  ∃ (c c' : HashUnit u) (blks : List Block) (r : Response), c.AgreeOnContext c' ∧
    t = ((s.setUnit u c).emit u blks).respond r ∧ t' = ((s'.setUnit u c').emit u blks).respond r

section
variable {u : UnitId} {c d : HashUnit u} {s s' : State}

theorem plen_of_agree (h : c.AgreeOnContext d) : c.plen = d.plen := by rw [plen_eq, plen_eq, h.len]

theorem padTail_of_agree (h : c.AgreeOnContext d) : padTail c = padTail d := by
  rw [padTail, padTail, h.pbuf, h.len, plen_of_agree h]

/-- FINAL leaves nothing of a context that its digest does not depend on. -/
theorem finalizedUnit_of_agree (h : c.AgreeOnContext d) : finalizedUnit c = finalizedUnit d := by
  rw [finalizedUnit, finalizedUnit, padTail_of_agree h, h.h]

/-- INIT makes any two contexts agree: with the count 0 nothing is pending. -/
theorem started_agree (c d : HashUnit u) :
    ({ c with h := initialH u, len := 0, life := .active } : HashUnit u).AgreeOnContext
      { d with h := initialH u, len := 0, life := .active } :=
  ⟨rfl, rfl, rfl, (pbuf_of_len_zero _ rfl).trans (pbuf_of_len_zero _ rfl).symm⟩

theorem corrupted_agree (h : c.AgreeOnContext d) :
    ({ c with life := .corrupted } : HashUnit u).AgreeOnContext { d with life := .corrupted } :=
  ⟨h.h, h.len, rfl, h.pbuf⟩

theorem absorb_blocks_of_agree (h : c.AgreeOnContext d) (data : List Byte) : (absorb c data).2 = (absorb d data).2 := by
  rw [absorb_blocks, absorb_blocks, h.pbuf]

theorem absorb_agree (h : c.AgreeOnContext d) (data : List Byte) :
    (absorb c data).1.AgreeOnContext (absorb d data).1 where
  h := by rw [absorb_h, absorb_h, h.pbuf, h.h]
  len := by rw [absorb_len, absorb_len, h.len]
  life := by rw [absorb_life, absorb_life, h.life]
  pbuf := by rw [absorb_pbuf, absorb_pbuf, h.pbuf]

/-- The same response, with contexts that agree and nothing compressed. -/
theorem sameCommandDone_respond (h : c.AgreeOnContext d) (r : Response) :
    SameCommandDone u s s' ((s.setUnit u c).respond r) ((s'.setUnit u d).respond r) :=
  ⟨c, d, [], r, h, by rw [emit_nil], by rw [emit_nil]⟩

theorem sameCommandDone_raise (h : (s.unit u).AgreeOnContext (s'.unit u)) (e : CommandError) :
    SameCommandDone u s s' (raise e s) (raise e s') := by
  simpa [raise_eq_respond] using sameCommandDone_respond (s := s) (s' := s') h ⟨.error e, 0, none⟩

theorem initUnit_agree (u : UnitId) (s s' : State) : SameCommandDone u s s' (initUnit u s) (initUnit u s') :=
  sameCommandDone_respond (started_agree (s.unit u) (s'.unit u)) ⟨.ok, 0, none⟩

theorem updateUnit_agree (h : (s.unit u).AgreeOnContext (s'.unit u)) (operand : Option (List Byte)) :
    SameCommandDone u s s' (updateUnit u operand s) (updateUnit u operand s') := by
  obtain ⟨e, hc, he⟩ | ⟨data, rfl, ha, ho, he⟩ | ⟨data, rfl, ha, ho, he⟩ := updateUnit_cases (u := u) (s := s) operand
  · rw [he, updateUnit_of_error (h.life ▸ hc)]
    exact sameCommandDone_raise h e
  · rw [he, updateUnit_of_overflow (h.life ▸ ha) (h.len ▸ ho), raise_eq_respond, raise_eq_respond]
    exact sameCommandDone_respond (corrupted_agree h) _
  · rw [he, updateUnit_of_ok (h.life ▸ ha) (h.len ▸ ho), ← absorb_blocks_of_agree h data]
    exact ⟨_, _, _, _, absorb_agree h data, rfl, rfl⟩

theorem finalUnit_agree (h : (s.unit u).AgreeOnContext (s'.unit u)) (sink : Bool) :
    SameCommandDone u s s' (finalUnit u sink s) (finalUnit u sink s') := by
  obtain ⟨e, hc, he⟩ | ⟨rfl, ha, he⟩ := finalUnit_cases (u := u) (s := s) sink
  · rw [he, finalUnit_of_error (h.life ▸ hc)]
    exact sameCommandDone_raise h e
  · rw [he, finalUnit_of_ok (h.life ▸ ha), ← finalizedUnit_of_agree h, ← padTail_of_agree h]
    exact ⟨_, _, _, _, ⟨rfl, rfl, rfl, rfl⟩, rfl, rfl⟩

end

/-- Every command run from two states whose addressed units agree is the same command in both. -/
theorem exec_agree {i : Instr} {s s' : State} (h : (s.unit i.unit).AgreeOnContext (s'.unit i.unit)) :
    ∃ t t', exec i s = .next t ∧ exec i s' = .next t' ∧ SameCommandDone i.unit s s' t t' := by
  generalize hu : i.unit = u at h ⊢
  obtain hi | ⟨operand, hi⟩ | ⟨sink, hi⟩ := instr_cases i <;> rw [hu] at hi <;> subst hi
  · exact ⟨_, _, exec_init u s, exec_init u s', initUnit_agree u s s'⟩
  · exact ⟨_, _, exec_update u operand s, exec_update u operand s', updateUnit_agree h operand⟩
  · exact ⟨_, _, exec_final u sink s, exec_final u sink s', finalUnit_agree h sink⟩

/-- Settles O37: both runs have the form of `SameCommandDone`, whose fields are read off. -/
theorem commandDependsOnItsUnitOnly : Obligations.CommandDependsOnItsUnitOnly := by
  intro i s s' h
  obtain ⟨t, t', ht, ht', c, c', blks, r, hagree, rfl, rfl⟩ := exec_agree h
  refine ⟨_, _, r, blks.map (CompressEvent.mk i.unit), ht, ht', by simp, by simp, by simp, by simp, ?_,
    sameOutside_of_setUnit .., sameOutside_of_setUnit ..⟩
  simpa using hagree

/-! ## Observation reads (R51) -/

theorem step_observe {s : State} {u : UnitId} {sel : BitVec 8} {rest : List Transaction}
    (hs : s.inbox = .observe u sel :: rest) : step s = .next (observeStep u sel { s with inbox := rest }) := by
  simp [step, hs]

/-- What a read returns does not depend on what waits behind it. -/
@[simp] theorem observe_take (s : State) (u : UnitId) (sel : BitVec 8) (rest : List Transaction) :
    observe { s with inbox := rest } u sel = observe s u sel := by
  rw [observe, observe, take_unit]

/-- The free value is read in residue bytes only. -/
theorem observeUnit_free_irrelevant {u : UnitId} {c : HashUnit u} {sel : BitVec 8}
    (hsel : ∀ i, i < 64 → sel.toNat = 0x40 + i → c.isResidue i = false) (free free' : Byte) :
    observeUnit c free sel = observeUnit c free' sel := by
  by_cases hbuf : 0x40 ≤ sel.toNat ∧ sel.toNat < 0x40 + 64
  · obtain ⟨i, hi⟩ := Nat.exists_eq_add_of_le hbuf.1
    have hlt : i < 64 := by omega
    rw [observeUnit_buf c _ hlt hi, observeUnit_buf c _ hlt hi, hsel i hlt hi, if_neg Bool.false_ne_true,
      if_neg Bool.false_ne_true]
  · simp only [observeUnit, if_neg hbuf]

/-- Settles O29: every field of `observeStep`. -/
theorem observationReadHasNoSideEffect : Obligations.ObservationReadHasNoSideEffect :=
  fun _ _ _ _ hs => ⟨_, step_observe hs, by simp, by simp, rfl, rfl, rfl⟩

/-- What a read of a selector that is no residue byte returns depends on the unit alone. -/
theorem observe_eq_of_unit {s t : State} {u : UnitId} {sel : BitVec 8} (hu : t.unit u = s.unit u)
    (hsel : ∀ i, i < 64 → sel.toNat = 0x40 + i → (s.unit u).isResidue i = false) :
    observe t u sel = observe s u sel := by
  rw [observe, observe, hu]
  exact observeUnit_free_irrelevant hsel _ _

/-- Settles O31: the second read finds the unit as the first one did. -/
theorem repeatedReadReturnsSameValue : Obligations.RepeatedReadReturnsSameValue := by
  intro s u sel rest hs hsel
  obtain ⟨t₁, hstep₁, hreads₁, hunits₁, hinbox₁, -⟩ := observationReadHasNoSideEffect s u sel _ hs
  obtain ⟨t, hstep, hreads, hunits, -⟩ := observationReadHasNoSideEffect t₁ u sel rest hinbox₁
  refine ⟨t, observe s u sel, ?_, ?_, fun w => (hunits w).trans (hunits₁ w)⟩
  · rw [run_succ_of_next _ hstep₁, run_succ_of_next _ hstep, run_zero]
  · rw [hreads, hreads₁, observe_eq_of_unit (hunits₁ u) hsel, List.append_assoc, List.singleton_append]

end Sys2Proof.Proofs

/-! The encoding (spec/30_encoding.md): what `decode` answers for any frame, said once (`decode_cases`), the codes it
rejects, the fields of the command it answers, and the two round trips with `encode` (R53 to R58); then the one response
each command gets (R61) and its status number (R62). -/

namespace Sys2Proof.Proofs

open Sys2Proof.Machine

/-! ## What decode answers -/

/-- The faults of spec/30_encoding.md R57. -/
abbrev CodeFault (cc : BitVec 8) : Prop :=
  ccRsv cc ≠ 0 ∨ ccOp cc = 0b00#2 ∨ (ccOp cc = 0b01#2 ∧ ccP cc = true)

/-- Everything decode can answer. -/
theorem decode_cases (f : Frame) :
    (CodeFault f.cc ∧ ∃ e, decode f = .error e) ∨
    (ccRsv f.cc = 0 ∧ ccOp f.cc = 0b01#2 ∧ ccP f.cc = false ∧
      decode f = .ok (.init (UnitId.ofBit (ccU f.cc)))) ∨
    (ccRsv f.cc = 0 ∧ ccOp f.cc = 0b10#2 ∧
      decode f = .ok (.update (UnitId.ofBit (ccU f.cc)) (if ccP f.cc then some f.data else none))) ∨
    (ccRsv f.cc = 0 ∧ ccOp f.cc = 0b11#2 ∧
      decode f = .ok (.final (UnitId.ofBit (ccU f.cc)) (ccP f.cc))) := by
  by_cases hr : ccRsv f.cc = 0
  case neg => exact .inl ⟨.inl hr, .reservedBits, if_pos hr⟩
  obtain ho | ho | ho | ho := ccOp_cases f.cc
  · exact .inl ⟨.inr (.inl ho), .reservedOp, by simp [decode, hr, ho]⟩
  · cases hp : ccP f.cc with
    | true => exact .inl ⟨.inr (.inr ⟨ho, hp⟩), .initWithOperand, by simp [decode, hr, ho, hp]⟩
    | false => exact .inr (.inl ⟨hr, ho, rfl, decode_init hr ho hp⟩)
  · exact .inr (.inr (.inl ⟨hr, ho, decode_update hr ho⟩))
  · exact .inr (.inr (.inr ⟨hr, ho, decode_final hr ho⟩))

theorem decode_error_iff (f : Frame) : (∃ e, decode f = .error e) ↔ CodeFault f.cc := by
  obtain ⟨hfault, he⟩ | ⟨hr, ho, hp, hd⟩ | ⟨hr, ho, hd⟩ | ⟨hr, ho, hd⟩ := decode_cases f
  · exact iff_of_true he hfault
  · simp [hd, hr, ho, hp]
  · simp [hd, hr, ho]
  · simp [hd, hr, ho]

theorem decode_ok_iff (f : Frame) : (∃ i, decode f = .ok i) ↔ ¬ CodeFault f.cc := by
  rw [← decode_error_iff]
  cases decode f <;> simp

/-- The ten codes of R55 are those without a fault of R57. -/
theorem not_codeFault_iff_legal : ∀ cc : BitVec 8, ¬ CodeFault cc ↔ cc ∈ legalCodes := by decide +kernel

/-! ## The fields of a command -/

section
variable (u : UnitId) (operand : Option (List Byte)) (sink : Bool)

@[simp] theorem init_p : (Instr.init u).p = false := by cases u <;> rfl
@[simp] theorem init_op : (Instr.init u).op = 0b01#2 := by cases u <;> rfl
@[simp] theorem init_operandBytes : (Instr.init u).operandBytes = [] := by cases u <;> rfl
@[simp] theorem update_p : (Instr.update u operand).p = operand.isSome := by cases u <;> rfl
@[simp] theorem update_op : (Instr.update u operand).op = 0b10#2 := by cases u <;> rfl
@[simp] theorem update_operandBytes : (Instr.update u operand).operandBytes = operand.getD [] := by cases u <;> rfl
@[simp] theorem final_p : (Instr.final u sink).p = sink := by cases u <;> rfl
@[simp] theorem final_op : (Instr.final u sink).op = 0b11#2 := by cases u <;> rfl
@[simp] theorem final_operandBytes : (Instr.final u sink).operandBytes = [] := by cases u <;> rfl

end

/-- The command `i` has the P, U and OP of the frame's code, whose RSV is 0 (R54), and of the frame's bytes those that
R56 makes its operand. -/
structure HasFieldsOf (i : Instr) (f : Frame) : Prop where
  rsv : ccRsv f.cc = 0
  p : i.p = ccP f.cc
  unit : i.unit = UnitId.ofBit (ccU f.cc)
  op : i.op = ccOp f.cc
  operandBytes : i.operandBytes = if ccOp f.cc = 0b10#2 ∧ ccP f.cc = true then f.data else []

theorem hasFieldsOf_of_decode {f : Frame} {i : Instr} (h : decode f = .ok i) : HasFieldsOf i f := by
  obtain ⟨-, e, hd⟩ | ⟨hr, ho, hp, hd⟩ | ⟨hr, ho, hd⟩ | ⟨hr, ho, hd⟩ := decode_cases f <;> rw [hd] at h <;> cases h
  · exact ⟨hr, by simp [hp], by simp, by simp [ho], by simp [ho]⟩
  · cases hp : ccP f.cc <;> exact ⟨hr, by simp [hp], by simp, by simp [ho], by simp [ho, hp]⟩
  · exact ⟨hr, by simp, by simp, by simp [ho], by simp [ho]⟩

/-- The port can carry the frame of a command exactly when the command is well-formed (R53). -/
theorem wf_encode (i : Instr) : (encode i).wf = i.wf := by
  cases i with
  | updateMd5 operand => cases operand <;> rfl
  | updateSha1 operand => cases operand <;> rfl
  | initMd5 | initSha1 | finalMd5 | finalSha1 => rfl

theorem wf_of_decode {f : Frame} {i : Instr} (h : decode f = .ok i) (hf : f.wf = true) : i.wf = true := by
  rw [← wf_encode, Frame.wf, encode, (hasFieldsOf_of_decode h).operandBytes]
  split
  · exact hf
  · rfl

/-! ## The statements about the encoding -/

/-- Settles O3: `wf_encode` for the port, `decode_encode` for the command. -/
theorem decodeEncode : Obligations.DecodeEncode :=
  fun i hi => ⟨(wf_encode i).trans hi, decode_encode i⟩

/-- Settles O2: both equivalences say that the code has none of the faults, or one. -/
theorem legalCodesAreTheTen : Obligations.LegalCodesAreTheTen :=
  fun f => ⟨(decode_ok_iff f).trans (not_codeFault_iff_legal f.cc), decode_error_iff f⟩

/-- Settles O4: the code is assembled again from its own fields (`cc_of_fields`). -/
theorem encodeDecode : Obligations.EncodeDecode := by
  intro f i h
  have hi := hasFieldsOf_of_decode h
  refine ⟨?_, hi.operandBytes, wf_of_decode h⟩
  rw [encode, hi.p, hi.unit, hi.op, cc_of_fields f.cc hi.rsv]

/-- Settles O1: the fields of each code written out. -/
theorem decodeOfWrittenCodes : Obligations.DecodeOfWrittenCodes := fun _ =>
  ⟨decode_init rfl rfl rfl, decode_init rfl rfl rfl, decode_update rfl rfl, decode_update rfl rfl,
    decode_update rfl rfl, decode_update rfl rfl, decode_final rfl rfl, decode_final rfl rfl,
    decode_final rfl rfl, decode_final rfl rfl⟩

/-! ## Responses (R61, R62) -/

/-- Settles O10: of what a step can do, only a command frame is answered, by `exec_next` or by an IllegalCommand. -/
theorem everyStepAnswersNext : Obligations.EveryStepAnswersNext := by
  intro s
  obtain ⟨hs, h⟩ | ⟨rest, hs, h⟩ | ⟨u, sel, rest, hs, h⟩ | ⟨f, rest, e, hs, -, h⟩ | ⟨f, rest, i, hs, -, h⟩ := step_cases s
  · exact ⟨_, [], h, by simp [hs], by simp, by simp [hs]⟩
  · exact ⟨_, [], h, by simp [hs], by simp, by simp [hs]⟩
  · exact ⟨_, [], h, by simp [hs], by simp, by simp [hs]⟩
  · exact ⟨_, [_], h, by simp [hs], raise_responses .., by simp [hs]⟩
  · obtain ⟨t, r, -, hexec, hresponses, -, houtside⟩ := exec_next i { s with inbox := rest }
    exact ⟨t, [r], h.trans hexec, by simp [hs, houtside.inbox], hresponses, by simp [hs]⟩

/-- Settles O12: the numbers are those of `Status.code`. -/
theorem statusNumbers : Obligations.StatusNumbers := ⟨rfl, rfl, rfl, rfl, rfl⟩

end Sys2Proof.Proofs

/-! The context commands (spec/40_context_commands.md): the cut of a stream into blocks (R72), what each command does,
its compressor invocations included (`CommandTraced`), the incremental equivalence of UPDATE (R79), and the hash of a
message given in chunks, by an invariant of the run (`Streamed`) that INIT starts, UPDATE extends and FINAL uses. -/

namespace Sys2Proof.Proofs

open Sys2Proof.Machine

/-! ## Cutting a stream into blocks (R72) -/

/-- The blocks and the tail are the stream: one block is taken off the front at a time (`blocksOf_cons`). -/
theorem flatMap_blocksOf_append_tailOf (stream : List Byte) :
    (blocksOf stream).flatMap (fun b => b.toList) ++ tailOf stream = stream := by
  induction hn : stream.length using Nat.strong_induction_on generalizing stream with
  | _ n ih =>
    by_cases h : stream.length < 64
    · rw [blocksOf_of_short h, tailOf_of_short h, List.flatMap_nil, List.nil_append]
    · have hle : 64 ≤ stream.length := Nat.le_of_not_lt h
      have hrest := ih (stream.drop 64).length (by rw [List.length_drop]; omega) _ rfl
      rw [blocksOf_cons hle, List.flatMap_cons, toList_blockAt_zero hle, ← tailOf_drop hle, List.append_assoc, hrest,
        List.take_append_drop]

/-- Settles O14 by `flatMap_blocksOf_append_tailOf` and the two lengths. -/
theorem blocksPartitionStream : Obligations.BlocksPartitionStream :=
  fun stream => ⟨flatMap_blocksOf_append_tailOf stream, length_blocksOf stream, length_tailOf stream⟩

/-! ## What each command does -/

/-- `CommandDone` with the trace: the command compressed the blocks `blks`, in order. -/
structure CommandTraced (u : UnitId) (s t : State) (c : HashUnit u) (blks : List Block) (r : Response) : Prop
    extends CommandDone u s t c r where
  trace : t.trace = s.trace ++ blks.map (CompressEvent.mk u)

theorem commandTraced_respond (u : UnitId) (s : State) (c : HashUnit u) (blks : List Block) (r : Response) :
    CommandTraced u s (((s.setUnit u c).emit u blks).respond r) c blks r where
  toCommandDone := commandDone_respond u s c blks r
  trace := by simp

theorem exec_init_traced (u : UnitId) (s : State) :
    ∃ t, exec (.init u) s = .next t ∧
      CommandTraced u s t { s.unit u with h := initialH u, len := 0, life := .active } [] ⟨.ok, 0, none⟩ :=
  ⟨_, exec_init u s, by simpa [initUnit] using commandTraced_respond u s _ [] _⟩

section
variable {u : UnitId} {s : State}

theorem exec_update_traced {data : List Byte} (active : (s.unit u).life = .active)
    (fits : (s.unit u).len.toNat + 8 * data.length < 2 ^ 64) :
    ∃ t, exec (.update u (some data)) s = .next t ∧
      CommandTraced u s t (absorb (s.unit u) data).1 (absorb (s.unit u) data).2
        ⟨.ok, BitVec.ofNat 64 (absorb (s.unit u) data).2.length, none⟩ :=
  ⟨_, exec_update u _ s, updateUnit_of_ok active fits ▸ commandTraced_respond ..⟩

theorem exec_update_overflow_traced {data : List Byte} (active : (s.unit u).life = .active)
    (excess : 2 ^ 64 ≤ (s.unit u).len.toNat + 8 * data.length) :
    ∃ t, exec (.update u (some data)) s = .next t ∧
      CommandTraced u s t { s.unit u with life := .corrupted } [] ⟨.error .overflow, 0, none⟩ := by
  refine ⟨_, exec_update u _ s, ?_⟩
  rw [updateUnit_of_overflow active excess, raise_eq_respond, ← emit_nil (s.setUnit u _) u]
  exact commandTraced_respond ..

theorem exec_final_traced (active : (s.unit u).life = .active) :
    ∃ t, exec (.final u true) s = .next t ∧
      CommandTraced u s t (finalizedUnit (s.unit u)) (blocksOf (padTail (s.unit u)))
        ⟨.ok, BitVec.ofNat 64 (blocksOf (padTail (s.unit u))).length, some (finalizedUnit (s.unit u)).dout.toList⟩ :=
  ⟨_, exec_final u true s, finalUnit_of_ok active ▸ commandTraced_respond ..⟩

end

/-- Settles O13: the fields of the context INIT starts. -/
theorem initStartsContext : Obligations.InitStartsContext := by
  intro u s
  obtain ⟨t, ht, hdone⟩ := exec_init_traced u s
  refine ⟨t, ht, ?_⟩
  rw [hdone.own]
  refine ⟨?constants, rfl, rfl, pbuf_of_len_zero _ rfl, rfl, rfl, hdone.response, by simpa using hdone.trace,
    hdone.outside⟩
  case constants => cases u <;> rfl

/-- Settles O15: the fields of `absorb`. -/
theorem updateAbsorbs : Obligations.UpdateAbsorbs := by
  intro u s data active fits
  obtain ⟨t, ht, hdone⟩ := exec_update_traced active fits
  have hblocks : (absorb (s.unit u) data).2.length = ((s.unit u).plen + data.length) / 64 := by
    rw [absorb_blocks, length_blocksOf, List.length_append, length_pbuf]
  refine ⟨t, ht, ?_⟩
  rw [hdone.own]
  exact ⟨absorb_h _ _, absorb_pbuf _ _, toNat_absorb_len fits, (absorb_life _ _).trans active, absorb_dout _ _,
    hblocks ▸ hdone.response, absorb_blocks _ data ▸ hdone.trace, hdone.outside⟩

/-- Settles O16: no bytes always fit, and absorbing them changes nothing (`absorb_nil`). -/
theorem emptyUpdateChangesNothing : Obligations.EmptyUpdateChangesNothing := by
  intro u s active
  have fits : (s.unit u).len.toNat + 8 * ([] : List Byte).length < 2 ^ 64 := (s.unit u).len.isLt
  rw [exec_update, updateUnit_of_ok active fits, absorb_nil, setUnit_unit, emit_nil]
  rfl

/-- Settles O17: 2^61 bytes are 2^64 bits, so both causes pass the count's range. -/
theorem overflowCorruptsOnlyLife : Obligations.OverflowCorruptsOnlyLife := by
  intro u s data active hcause
  obtain ⟨t, ht, hdone⟩ := exec_update_overflow_traced (data := data) active (by omega)
  exact ⟨t, ht, hdone.own, hdone.response, by simpa using hdone.trace, hdone.outside⟩

/-- Settles O24: the fields of `finalizedUnit`, and one or two blocks of padded tail (`length_padfin_blocks`). -/
theorem finalDeliversDigest : Obligations.FinalDeliversDigest := by
  intro u s active
  obtain ⟨t, ht, hdone⟩ := exec_final_traced active
  have hncomp : BitVec.ofNat 64 (blocksOf (padTail (s.unit u))).length = if (s.unit u).plen ≤ 55 then 1 else 2 := by
    rw [length_padfin_blocks]
    split <;> rfl
  refine ⟨t, ht, ?_⟩
  rw [hdone.own]
  exact ⟨toList_dout_of_serialize _ _, Vector.toList_replicate, rfl, Vector.toList_replicate, rfl,
    hncomp ▸ hdone.response, hdone.trace, hdone.outside⟩

/-- Settles O26: `serialize` writes DL(u) bytes. -/
theorem digestHasFixedLength : Obligations.DigestHasFixedLength :=
  fun _ => ⟨length_serialize .md5 _, length_serialize .sha1 _⟩

/-! ## Two UPDATEs (R79) -/

section
variable {u : UnitId} (c : HashUnit u) (d1 d2 : List Byte)

/-- What absorbing `d1` leaves pending completes with `d2` the blocks that `d1 ++ d2` has more. -/
theorem absorb_append_blocks :
    (absorb c (d1 ++ d2)).2 = (absorb c d1).2 ++ (absorb (absorb c d1).1 d2).2 := by
  rw [absorb_blocks, absorb_blocks, absorb_blocks, absorb_pbuf, ← List.append_assoc, blocksOf_append]

theorem absorb_absorb_agree : (absorb (absorb c d1).1 d2).1.AgreeOnContext (absorb c (d1 ++ d2)).1 where
  h := by rw [absorb_h, absorb_h, absorb_h, absorb_pbuf, ← List.append_assoc, blocksOf_append (c.pbuf ++ d1),
    List.foldl_append]
  len := by rw [absorb_len, absorb_len, absorb_len, BitVec.add_assoc, ← BitVec.ofNat_add, ← Nat.mul_add,
    List.length_append]
  life := by rw [absorb_life, absorb_life, absorb_life]
  pbuf := by rw [absorb_pbuf, absorb_pbuf, absorb_pbuf, ← List.append_assoc, ← tailOf_append]

end

/-- Settles O39: the first UPDATE leaves an Active context with room for `d2`; then the contexts agree by
`absorb_absorb_agree`, the events and the counts by `absorb_append_blocks`. -/
theorem twoUpdatesEqualOne : Obligations.TwoUpdatesEqualOne := by
  intro u s d1 d2 active fits
  have fits1 : (s.unit u).len.toNat + 8 * d1.length < 2 ^ 64 := by omega
  obtain ⟨t1, ht1, hdone1⟩ := exec_update_traced active fits1
  have active1 : (t1.unit u).life = .active := by rw [hdone1.own, absorb_life, active]
  have fits2 : (t1.unit u).len.toNat + 8 * d2.length < 2 ^ 64 := by rw [hdone1.own, toNat_absorb_len fits1]; omega
  obtain ⟨t2, ht2, hdone2⟩ := exec_update_traced active1 fits2
  obtain ⟨t, ht, hdone⟩ := exec_update_traced (data := d1 ++ d2) active (by rw [List.length_append]; omega)
  rw [hdone1.own] at hdone2
  have hagree : (t2.unit u).AgreeOnContext (t.unit u) := by
    rw [hdone2.own, hdone.own]
    exact absorb_absorb_agree ..
  have hresponses := hdone2.response
  rw [hdone1.response, List.append_assoc, List.singleton_append] at hresponses
  refine ⟨t2, t, _, _, ?run, ht, hagree, plen_of_agree hagree, ?dout, ?trace, hresponses, ?response⟩
  case run => rw [execAll_cons_of_next _ ht1, execAll_cons_of_next _ ht2, execAll_nil]
  case dout => rw [hdone2.own, hdone.own, absorb_dout, absorb_dout, absorb_dout]
  case trace =>
    rw [hdone2.trace, hdone1.trace, hdone.trace, absorb_append_blocks, List.map_append, List.append_assoc]
  case response => rw [hdone.response, absorb_append_blocks, List.length_append, BitVec.ofNat_add]

/-! ## A message given in chunks (R79, R81) -/

theorem sameOutside_trans {u : UnitId} {s t t' : State} (h : SameOutside u s t) (h' : SameOutside u t t') :
    SameOutside u s t' where
  other := fun v hv => (h'.other v hv).trans (h.other v hv)
  inbox := h'.inbox.trans h.inbox
  reads := h'.reads.trans h.reads
  freeIndex := h'.freeIndex.trans h.freeIndex

/-- `k` commands to unit `u` have led from `s` to `t`, whose context holds the message `m`; exactly the blocks of `m`
were compressed, and what is outside the unit is as it was. -/
structure Streamed (u : UnitId) (s t : State) (m : List Byte) (k : Nat) : Prop where
  holds : (t.unit u).Holds m
  trace : t.trace = s.trace ++ (blocksOf m).map (CompressEvent.mk u)
  responses : t.responses.length = s.responses.length + k
  outside : SameOutside u s t

theorem exec_init_streamed (u : UnitId) (s : State) :
    ∃ t, exec (.init u) s = .next t ∧ Streamed u s t [] 1 := by
  obtain ⟨t, ht, hdone⟩ := exec_init_traced u s
  exact ⟨t, ht, hdone.own ▸ holds_nil_of_init _, hdone.trace, by simp [hdone.response], hdone.outside⟩

section
variable {u : UnitId} {s t : State} {m : List Byte} {k : Nat}

theorem Streamed.exec_update {data : List Byte} (h : Streamed u s t m k) (fits : 8 * (m ++ data).length < 2 ^ 64) :
    ∃ t', exec (.update u (some data)) t = .next t' ∧ Streamed u s t' (m ++ data) (k + 1) := by
  have fits' : (t.unit u).len.toNat + 8 * data.length < 2 ^ 64 := by
    rwa [h.holds.count, ← Nat.mul_add, ← List.length_append]
  obtain ⟨t', ht', hdone⟩ := exec_update_traced h.holds.active fits'
  refine ⟨t', ht', hdone.own ▸ holds_append_of_absorb h.holds fits', ?trace, ?responses,
    sameOutside_trans h.outside hdone.outside⟩
  case trace =>
    rw [hdone.trace, h.trace, absorb_blocks, h.holds.pending, blocksOf_append m data, List.map_append,
      List.append_assoc]
  case responses =>
    rw [hdone.response, List.length_append, h.responses, List.length_singleton, Nat.add_assoc]

/-- One UPDATE a chunk appends the chunks to the message. -/
theorem Streamed.execAll_updates (chunks : List (List Byte)) (h : Streamed u s t m k)
    (fits : 8 * (m ++ chunks.flatten).length < 2 ^ 64) :
    ∃ t', execAll (chunks.map fun d => Instr.update u (some d)) t = .next t' ∧
      Streamed u s t' (m ++ chunks.flatten) (k + chunks.length) := by
  induction chunks generalizing t m k with
  | nil => exact ⟨t, rfl, by simpa using h⟩
  | cons d chunks ih =>
    rw [List.flatten_cons, ← List.append_assoc] at fits ⊢
    obtain ⟨t₁, ht₁, h₁⟩ := h.exec_update (data := d) (by rw [List.length_append] at fits; omega)
    obtain ⟨t', ht', h'⟩ := ih h₁ fits
    refine ⟨t', ?_, ?_⟩
    · rw [List.map_cons, execAll_cons_of_next _ ht₁, ht']
    · rwa [List.length_cons, Nat.add_comm chunks.length, ← Nat.add_assoc]

end

/-- INIT and one UPDATE a chunk leave a context that holds the concatenation, from every state. -/
theorem execAll_init_updates_streamed (u : UnitId) (s : State) (chunks : List (List Byte))
    (fits : 8 * chunks.flatten.length < 2 ^ 64) :
    ∃ t, execAll (.init u :: chunks.map fun d => Instr.update u (some d)) s = .next t ∧
      Streamed u s t chunks.flatten (chunks.length + 1) := by
  obtain ⟨t₁, ht₁, h₁⟩ := exec_init_streamed u s
  obtain ⟨t, ht, h⟩ := h₁.execAll_updates chunks fits
  exact ⟨t, (execAll_cons_of_next _ ht₁).trans ht, Nat.add_comm 1 _ ▸ h⟩

section
variable {u : UnitId} {c : HashUnit u} {m : List Byte}

theorem plen_of_holds (h : c.Holds m) : c.plen = m.length % 64 := by
  rw [← length_pbuf, h.pending, length_tailOf]

/-- The blocks of the padded message are those compressed while the message was streamed, then those of the padded
tail (spec/43_padding_finalizer.md R109). -/
theorem blocksOf_padMessage_of_holds (h : c.Holds m) :
    blocksOf (padMessage u m) = blocksOf m ++ blocksOf (padTail c) := by
  simp only [padMessage, padTail, h.pending, h.count, plen_of_holds h, List.append_assoc]
  exact blocksOf_append m _

/-- FINAL delivers the hash of the message the context holds. -/
theorem toList_finalizedUnit_dout_of_holds (h : c.Holds m) : (finalizedUnit c).dout.toList = hashMessage u m := by
  rw [finalizedUnit, toList_dout_of_serialize, hashMessage, blocksOf_padMessage_of_holds h, List.foldl_append,
    h.chain]

end

/-- Settles O41: FINAL from the context that INIT and the UPDATEs leave. -/
theorem chunkedHashIsHashOfMessage : Obligations.ChunkedHashIsHashOfMessage := by
  intro u s chunks fits
  obtain ⟨t, ht, h⟩ := execAll_init_updates_streamed u s chunks fits
  obtain ⟨t', ht', hdone⟩ := exec_final_traced h.holds.active
  have hresponse := hdone.response
  rw [toList_finalizedUnit_dout_of_holds h.holds] at hresponse
  have hlast := congrArg List.getLast? hresponse
  rw [List.getLast?_concat] at hlast
  refine ⟨t', _, ?run, ?dout, hlast, ?count, ?trace, ?life, sameOutside_trans h.outside hdone.outside⟩
  case run => rw [execAll_append ht, execAll_cons_of_next _ ht', execAll_nil]
  case dout => rw [hdone.own, toList_finalizedUnit_dout_of_holds h.holds]
  case count =>
    rw [hresponse, List.length_append, h.responses, List.length_singleton]
    omega
  case trace =>
    rw [hdone.trace, h.trace, blocksOf_padMessage_of_holds h.holds, List.map_append, List.append_assoc]
  case life => rw [hdone.own]; rfl

/-- Settles O42: an event a block, of the message before FINAL and of the padded tail in FINAL. -/
theorem invocationCounts : Obligations.InvocationCounts := by
  intro u s chunks fits
  obtain ⟨t, ht, h⟩ := execAll_init_updates_streamed u s chunks fits
  obtain ⟨t', ht', hdone⟩ := exec_final_traced h.holds.active
  have hstream : t.trace.length = s.trace.length + chunks.flatten.length / 64 := by
    rw [h.trace, List.length_append, List.length_map, length_blocksOf]
  have hfinal : t'.trace.length = t.trace.length + (if chunks.flatten.length % 64 ≤ 55 then 1 else 2) := by
    rw [hdone.trace, List.length_append, List.length_map, length_padfin_blocks, plen_of_holds h.holds]
  refine ⟨t, t', ht, ht', hstream, hfinal, ?_⟩
  rw [hfinal, hstream]
  split <;> omega

end Sys2Proof.Proofs

/-! The MD5 compressor (spec/41_compress_md5.md): what the functions and tables of the 64 steps are in each group of 16
steps (R88 to R93), said once for each table; the step as a true rotation (R95); and the decode, load and feed-forward
that both compressors share in form (R86, R87, R96; spec/42_compress_sha1.md R101, R107). -/

namespace Sys2Proof.Proofs

open Sys2Proof.Machine

/-! ## The functions (R88 to R91) -/

section
variable (x y z : Word) {k : Nat}

theorem getLsbD_md5F (hk : k < 32) :
    (md5F x y z).getLsbD k = if x.getLsbD k then y.getLsbD k else z.getLsbD k := by
  rw [md5F, BitVec.getLsbD_or, BitVec.getLsbD_and, BitVec.getLsbD_and, BitVec.getLsbD_not]
  cases x.getLsbD k <;> simp [hk]

theorem getLsbD_md5G (hk : k < 32) :
    (md5G x y z).getLsbD k = if z.getLsbD k then x.getLsbD k else y.getLsbD k := by
  rw [md5G, BitVec.getLsbD_or, BitVec.getLsbD_and, BitVec.getLsbD_and, BitVec.getLsbD_not]
  cases z.getLsbD k <;> simp [hk]

theorem getLsbD_md5H : (md5H x y z).getLsbD k = ((x.getLsbD k ^^ y.getLsbD k) ^^ z.getLsbD k) := by
  rw [md5H, BitVec.getLsbD_xor, BitVec.getLsbD_xor]

theorem getLsbD_md5I (hk : k < 32) : (md5I x y z).getLsbD k = (y.getLsbD k ^^ (x.getLsbD k || !z.getLsbD k)) := by
  simp [md5I, hk]

end

/-- The function of step i, by the group of the step (R95). -/
theorem md5Fn_cases {i : Nat} (hi : i < 64) :
    (i / 16 = 0 ∧ md5Fn i = md5F) ∨ (i / 16 = 1 ∧ md5Fn i = md5G) ∨
      (i / 16 = 2 ∧ md5Fn i = md5H) ∨ (i / 16 = 3 ∧ md5Fn i = md5I) := by
  unfold md5Fn
  split
  · exact .inl ⟨by omega, rfl⟩
  split
  · exact .inr (.inl ⟨by omega, rfl⟩)
  split
  · exact .inr (.inr (.inl ⟨by omega, rfl⟩))
  · exact .inr (.inr (.inr ⟨by omega, rfl⟩))

/-- Settles O44: each function by its bits, and `md5Fn_cases`. -/
theorem md5FunctionsBitwise : Obligations.Md5FunctionsBitwise := by
  refine ⟨fun x y z k hk => ?_, fun i hi => ?_⟩
  · exact ⟨getLsbD_md5F x y z hk, getLsbD_md5G x y z hk, getLsbD_md5H x y z, getLsbD_md5I x y z hk⟩
  · obtain ⟨hg, hf⟩ | ⟨hg, hf⟩ | ⟨hg, hf⟩ | ⟨hg, hf⟩ := md5Fn_cases hi <;> (rw [hg, hf]; rfl)

/-! ## The word order (R92) and the rotation amounts (R93) -/

section
variable {i : Nat}

theorem md5K_group0 (hi : i < 16) : md5K i = i := if_pos hi

theorem md5K_group1 (hi : i < 16) : md5K (16 + i) = (5 * (16 + i) + 1) % 16 := by
  rw [md5K, if_neg (by omega), if_pos (by omega)]

theorem md5K_group2 (hi : i < 16) : md5K (32 + i) = (3 * (32 + i) + 5) % 16 := by
  rw [md5K, if_neg (by omega), if_neg (by omega), if_pos (by omega)]

theorem md5K_group3 : md5K (48 + i) = (7 * (48 + i)) % 16 := by
  rw [md5K, if_neg (by omega), if_neg (by omega), if_neg (by omega)]

/-- The step of group g that uses word k: the inverse of the group's word order modulo 16. -/
def md5Position : Nat → Nat → Nat
  | 0, k => k % 16
  | 1, k => (13 * k + 3) % 16
  | 2, k => (11 * k + 9) % 16
  | _, k => (7 * k) % 16

theorem md5Position_lt (g k : Nat) : md5Position g k < 16 := by
  unfold md5Position
  split <;> exact Nat.mod_lt _ (by decide)

theorem md5K_eq_iff {g k : Nat} (hg : g < 4) (hi : i < 16) (hk : k < 16) :
    md5K (16 * g + i) = k ↔ i = md5Position g k := by
  match g with
  | 0 => rw [Nat.mul_zero, Nat.zero_add, md5K_group0 hi, md5Position]; omega
  | 1 => rw [Nat.mul_one, md5K_group1 hi, md5Position]; omega
  | 2 => rw [md5K_group2 hi, md5Position]; omega
  | 3 => rw [md5K_group3, md5Position] <;> omega

theorem md5S_of_group (g : Nat) (hi : i < 16) : md5S (16 * g + i) = (md5Rotations.getD g []).getD (i % 4) 0 := by
  have hgroup : (16 * g + i) / 16 = g := by omega
  have hentry : (16 * g + i) % 4 = i % 4 := by omega
  rw [md5S, hgroup, hentry]

end

/-- Settles O45: the order of each group has the inverse `md5Position`, so it meets every word once. -/
theorem md5WordOrderAndRotations : Obligations.Md5WordOrderAndRotations := by
  refine ⟨fun i hi => ?_, fun g hg k hk => ?_, fun i hi => ?_⟩
  · exact ⟨md5K_group0 hi, md5K_group1 hi, md5K_group2 hi, md5K_group3⟩
  · have hlt := md5Position_lt g k
    exact ⟨_, hlt, (md5K_eq_iff hg hlt hk).2 rfl, fun j hj => (md5K_eq_iff hg hj hk).1⟩
  · have hfirst := md5S_of_group 0 hi
    rw [Nat.mul_zero, Nat.zero_add] at hfirst
    exact ⟨hfirst, md5S_of_group 1 hi, md5S_of_group 2 hi, md5S_of_group 3 hi⟩

/-! ## The step (R95) -/

/-- The two shifts are a rotation for every amount below the width (spec/00_scope.md R9). -/
theorem rotl32_eq_rotateLeft (x : Word) {n : Nat} (hn : n < 32) : rotl32 x n = x.rotateLeft n := by
  rw [BitVec.rotateLeft_def, Nat.mod_eq_of_lt hn, rotl32]

theorem md5S_lt : ∀ i, i < 64 → md5S i < 32 := by decide

theorem md5Steps_zero (x : List Word) (r : Md5Regs) : md5Steps x r 0 = r := rfl

theorem md5Steps_succ (x : List Word) (r : Md5Regs) (n : Nat) :
    md5Steps x r (n + 1) = md5Step x (md5Steps x r n) n := by
  rw [md5Steps, List.range_succ, List.foldl_append]
  rfl

/-- Settles O46: the last step of the run, with the function of its group and `rotl32` as a rotation. -/
theorem md5StepRotates : Obligations.Md5StepRotates := by
  refine fun x r => ⟨md5Steps_zero x r, fun i hi => ?_⟩
  rw [md5Steps_succ, md5Step, rotl32_eq_rotateLeft _ (md5S_lt i hi)]
  obtain ⟨hg, hf⟩ | ⟨hg, hf⟩ | ⟨hg, hf⟩ | ⟨hg, hf⟩ := md5Fn_cases hi <;> (rw [hg, hf]; rfl)

/-! ## Decode, load and feed-forward (R86, R87, R96; spec/42_compress_sha1.md R101, R107) -/

theorem toList_compress_md5 (h0 h1 h2 h3 : Word) (blk : Block) :
    let q := md5Steps (blockWords .md5 blk) ⟨h0, h1, h2, h3⟩ 64
    (compress .md5 #v[h0, h1, h2, h3] blk).toList = [h0 + q.a, h1 + q.b, h2 + q.c, h3 + q.d] := rfl

theorem toList_compress_sha1 (h0 h1 h2 h3 h4 : Word) (blk : Block) :
    let q := sha1Rounds (sha1Schedule blk) ⟨h0, h1, h2, h3, h4⟩ 80
    (compress .sha1 #v[h0, h1, h2, h3, h4] blk).toList = [h0 + q.a, h1 + q.b, h2 + q.c, h3 + q.d, h4 + q.e] := rfl

/-- Settles O50: an accumulator is the vector of its words, from which each compressor loads its registers. -/
theorem compressorsFeedForward : Obligations.CompressorsFeedForward := by
  constructor
  · intro h h0 h1 h2 h3 blk hwords
    obtain rfl : h = #v[h0, h1, h2, h3] := vector_eq_of_toList hwords
    exact ⟨fun k hk => getD_blockWords .md5 blk hk, toList_compress_md5 h0 h1 h2 h3 blk⟩
  · intro h h0 h1 h2 h3 h4 blk hwords
    obtain rfl : h = #v[h0, h1, h2, h3, h4] := vector_eq_of_toList hwords
    exact toList_compress_sha1 h0 h1 h2 h3 h4 blk

end Sys2Proof.Proofs

/-! The SHA-1 compressor (spec/42_compress_sha1.md): what the expansion of a schedule keeps and adds (R99, R100), the
functions and constants of the 80 rounds in each group of 20 (R102 to R105), and the round (R106). -/

namespace Sys2Proof.Proofs

open Sys2Proof.Machine

/-! ## The schedule (R99, R100) -/

section
variable {w : List Word} {n t : Nat}

@[simp] theorem length_sha1Expand (w : List Word) (n : Nat) : (sha1Expand w n).length = w.length + n := by
  induction n generalizing w with
  | zero => rfl
  | succ n ih =>
    rw [sha1Expand, ih, List.length_append, List.length_singleton]
    omega

/-- The expansion only appends: a word there is stays where it is. -/
theorem getD_sha1Expand_of_lt (ht : t < w.length) : (sha1Expand w n).getD t 0 = w.getD t 0 := by
  induction n generalizing w with
  | zero => rfl
  | succ n ih =>
    have hlonger : t < (w ++ [sha1NextWord w]).length := by simp [Nat.lt_succ_of_lt ht]
    rw [sha1Expand, ih hlonger, List.getD_append _ _ _ _ ht]

/-- The first word the expansion adds is the next word of the schedule it starts from. -/
theorem getD_sha1Expand_length (w : List Word) (n : Nat) :
    (sha1Expand w (n + 1)).getD w.length 0 = sha1NextWord w := by
  rw [sha1Expand, getD_sha1Expand_of_lt (by simp), List.getD_append_right _ _ _ _ (Nat.le_refl _), Nat.sub_self]
  rfl

/-- Every word the expansion adds obeys the recurrence over the finished schedule: the words it was made of have not
moved since. -/
theorem getD_sha1Expand_of_ge (hw : 0 < w.length) (hge : w.length ≤ t) (hlt : t < w.length + n) :
    (sha1Expand w n).getD t 0 =
      rotl32 ((sha1Expand w n).getD (t - 3) 0 ^^^ (sha1Expand w n).getD (t - 8) 0 ^^^
        (sha1Expand w n).getD (t - 14) 0 ^^^ (sha1Expand w n).getD (t - 16) 0) 1 := by
  induction n generalizing w with
  | zero => omega
  | succ n ih =>
    obtain rfl | hlater := Nat.eq_or_lt_of_le hge
    · have hkept (j : Nat) (hj : 0 < j) :
          (sha1Expand w (n + 1)).getD (w.length - j) 0 = w.getD (w.length - j) 0 :=
        getD_sha1Expand_of_lt (by omega)
      rw [getD_sha1Expand_length, hkept 3 (by omega), hkept 8 (by omega), hkept 14 (by omega), hkept 16 (by omega),
        sha1NextWord]
    · have hlength : (w ++ [sha1NextWord w]).length = w.length + 1 := List.length_append
      exact ih (by omega) (by omega) (by omega)

end

/-- Settles O48: the schedule is the sixteen decoded words expanded by 64. -/
theorem sha1ScheduleRecurrence : Obligations.Sha1ScheduleRecurrence := by
  intro blk
  have hwords : (blockWords .sha1 blk).length = 16 := by simp [blockWords]
  refine ⟨?length, fun k hk => ?decoded, fun t hge hlt => ?expanded⟩
  case length => rw [sha1Schedule, length_sha1Expand, hwords]
  case decoded =>
    rw [sha1Schedule, getD_sha1Expand_of_lt (by omega)]
    exact getD_blockWords .sha1 blk hk
  case expanded =>
    rw [← rotl32_eq_rotateLeft _ (by omega)]
    exact getD_sha1Expand_of_ge (by omega) (by omega) (by omega)

/-! ## The functions and the constants (R102 to R105) -/

/-- Ch is the function F of MD5 (R102). -/
theorem sha1Ch_eq_md5F : sha1Ch = md5F := rfl

theorem sha1Parity_eq_md5H : sha1Parity = md5H := rfl

theorem or_and_pairs_eq_two_le : ∀ a b c : Bool,
    (a && b || a && c || b && c) = decide (2 ≤ a.toNat + b.toNat + c.toNat) := by decide

theorem getLsbD_sha1Maj (x y z : Word) (k : Nat) : (sha1Maj x y z).getLsbD k =
    decide (2 ≤ (x.getLsbD k).toNat + (y.getLsbD k).toNat + (z.getLsbD k).toNat) := by
  rw [sha1Maj, ← or_and_pairs_eq_two_le]
  simp only [BitVec.getLsbD_or, BitVec.getLsbD_and]

/-- The function and the constant of round t, by the group of the round (R105). -/
theorem sha1Fn_sha1K_cases {t : Nat} (ht : t < 80) :
    (t / 20 = 0 ∧ sha1Fn t = sha1Ch ∧ sha1K t = 0x5A827999) ∨
      (t / 20 = 1 ∧ sha1Fn t = sha1Parity ∧ sha1K t = 0x6ED9EBA1) ∨
      (t / 20 = 2 ∧ sha1Fn t = sha1Maj ∧ sha1K t = 0x8F1BBCDC) ∨
      (t / 20 = 3 ∧ sha1Fn t = sha1Parity ∧ sha1K t = 0xCA62C1D6) := by
  unfold sha1Fn sha1K
  split_ifs with h0 h1 h2
  · exact .inl ⟨by omega, rfl, rfl⟩
  · exact .inr (.inl ⟨by omega, rfl, rfl⟩)
  · exact .inr (.inr (.inl ⟨by omega, rfl, rfl⟩))
  · exact .inr (.inr (.inr ⟨by omega, rfl, rfl⟩))

/-- Settles O47: each function by its bits, two of them those of MD5, and `sha1Fn_sha1K_cases`. -/
theorem sha1FunctionsBitwise : Obligations.Sha1FunctionsBitwise := by
  refine ⟨fun x y z k hk => ⟨?ch, ?parity, getLsbD_sha1Maj x y z k⟩, fun t ht => ?groups⟩
  case ch => rw [sha1Ch_eq_md5F, getLsbD_md5F x y z hk]
  case parity => rw [sha1Parity_eq_md5H, getLsbD_md5H]
  case groups =>
    obtain ⟨hg, hfn, hK⟩ | ⟨hg, hfn, hK⟩ | ⟨hg, hfn, hK⟩ | ⟨hg, hfn, hK⟩ := sha1Fn_sha1K_cases ht <;>
      (rw [hg, hfn, hK]; rfl)

/-! ## The round (R106) -/

theorem sha1Rounds_zero (w : List Word) (r : Sha1Regs) : sha1Rounds w r 0 = r := rfl

theorem sha1Rounds_succ (w : List Word) (r : Sha1Regs) (n : Nat) :
    sha1Rounds w r (n + 1) = sha1Round w (sha1Rounds w r n) n := by
  rw [sha1Rounds, List.range_succ, List.foldl_append]
  rfl

/-- Settles O49: the last round of the run, with both `rotl32` as rotations. -/
theorem sha1RoundRotates : Obligations.Sha1RoundRotates := by
  refine fun w r => ⟨sha1Rounds_zero w r, fun t _ => ?_⟩
  rw [sha1Rounds_succ, sha1Round, rotl32_eq_rotateLeft _ (by decide), rotl32_eq_rotateLeft _ (by decide)]

end Sys2Proof.Proofs

/-! The finalizer (spec/43_padding_finalizer.md): the shape of the padded tail (R109 to R112), the bytes of the
serialised digest (R114), and what the observation port reads after the wipe (R115). -/

namespace Sys2Proof.Proofs

open Sys2Proof.Machine

/-! ## The padded tail (R109 to R112) -/

/-- The number of zero bytes, by the table of R109. -/
theorem padZeros_eq_ite {idx : Nat} (h : idx < 64) : padZeros idx = if idx ≤ 55 then 55 - idx else 119 - idx := by
  split
  · next hle => exact padZeros_of_le hle
  · next hgt => exact padZeros_of_gt (by omega) h

/-- The length field begins at 56 mod 64 (R111). -/
theorem lengthField_position {idx : Nat} (h : idx < 64) : (idx + 1 + padZeros idx) % 64 = 56 := by
  rw [padZeros]
  omega

/-- Settles O23: the table of R109 (`padZeros_eq_ite`), the place of the field, and `length_padTail`. -/
theorem paddingShape : Obligations.PaddingShape := by
  refine fun u c => ⟨?shape, lengthField_position (plen_lt c), length_padTail c⟩
  rw [padTail, padZeros_eq_ite (plen_lt c), List.append_assoc, List.append_assoc]
  cases u <;> rfl

/-! ## The bytes of the digest (R114) -/

/-- Byte `n * j + i` of pieces of `n` bytes each, written one after another, is byte `i` of piece `j`. -/
theorem getElem?_flatMap_of_length_eq {α β : Type} {f : α → List β} {n : Nat} (hf : ∀ a, (f a).length = n)
    {l : List α} {j i : Nat} (hj : j < l.length) (hi : i < n) : (l.flatMap f)[n * j + i]? = (f l[j])[i]? := by
  induction l generalizing j with
  | nil => exact absurd hj (Nat.not_lt_zero j)
  | cons a l ih =>
    rw [List.flatMap_cons]
    cases j with
    | zero => rw [Nat.mul_zero, Nat.zero_add, List.getElem?_append_left (by rwa [hf]), List.getElem_cons_zero]
    | succ j =>
      have hoff : n * (j + 1) + i - (f a).length = n * j + i := by rw [hf, Nat.mul_succ]; omega
      rw [List.getElem?_append_right (by rw [hf, Nat.mul_succ]; omega), hoff, List.getElem_cons_succ]
      exact ih (Nat.lt_of_succ_lt_succ hj)

/-- Byte `4 * j + i` of the digest is byte `i` of accumulator word `j`, in the unit's byte order. -/
theorem getElem?_serialize {u : UnitId} (h : Vector Word (NW u)) {j i : Nat} (hj : j < NW u) (hi : i < 4) :
    (serialize u h)[4 * j + i]? = (bytesOfNat u (h.toList.getD j 0).toNat 4)[i]? := by
  have hj' : j < h.toList.length := by rwa [Vector.length_toList]
  rw [serialize, getElem?_flatMap_of_length_eq (fun w => length_bytesOfNat u w.toNat 4) hj' hi,
    List.getD_eq_getElem _ _ hj']

/-- A byte is the low 8 bits of what it is cut from. -/
theorem ofNat_mod_byte (v : Nat) : BitVec.ofNat 8 (v % 256) = BitVec.ofNat 8 v :=
  BitVec.eq_of_toNat_eq (by simp)

theorem getElem?_leBytes {v n i : Nat} (hi : i < n) :
    (leBytes v n)[i]? = some (BitVec.ofNat 8 ((v >>> (8 * i)) % 256)) := by
  rw [leBytes, List.getElem?_map, List.getElem?_range hi, Option.map_some, ofNat_mod_byte]

theorem getElem?_beBytes {v n i : Nat} (hi : i < n) :
    (beBytes v n)[i]? = some (BitVec.ofNat 8 ((v >>> (8 * (n - 1 - i))) % 256)) := by
  rw [beBytes, List.getElem?_map, List.getElem?_range hi, Option.map_some, ofNat_mod_byte]

/-- Settles O25: `getElem?_serialize` and the bytes of one word, in each byte order. -/
theorem serializedDigestBytes : Obligations.SerializedDigestBytes := by
  refine ⟨fun h => ⟨length_serialize .md5 h, fun j i hj hi => ?md5⟩,
    fun h => ⟨length_serialize .sha1 h, fun j i hj hi => ?sha1⟩⟩
  case md5 =>
    rw [getElem?_serialize h hj hi]
    exact getElem?_leBytes hi
  case sha1 =>
    have hshift : 24 - 8 * i = 8 * (4 - 1 - i) := by omega
    rw [getElem?_serialize h hj hi, hshift]
    exact getElem?_beBytes hi

/-! ## The observation port after FINAL (R115) -/

section
variable {u : UnitId} (c : HashUnit u) (free : Byte) {sel : BitVec 8}

theorem observeUnit_finalizedUnit_h {j : Nat} (hj : j < NW u) (hsel : sel.toNat = 0x04 + j) :
    observeUnit (finalizedUnit c) free sel = 0 := by
  have hread := observeUnit_h (finalizedUnit c) free hj hsel
  have hword : (finalizedUnit c).h.toList[j]? = some 0 := by simp [finalizedUnit, hj]
  exact Option.some.inj (hread.symm.trans hword)

/-- A Finalized unit has no residue: the store bytes are the zeros of the wipe. -/
theorem observeUnit_finalizedUnit_buf {i : Nat} (hi : i < 64) (hsel : sel.toNat = 0x40 + i) :
    observeUnit (finalizedUnit c) free sel = 0 := by
  have hresidue : (finalizedUnit c).isResidue i = false := by simp [HashUnit.isResidue, finalizedUnit]
  have hbyte : (finalizedUnit c).buf.toList.getD i 0 = 0 := by
    rw [finalizedUnit, Vector.toList_replicate, List.getD_replicate _ hi]
  rw [observeUnit_buf _ _ hi hsel, hresidue, hbyte]
  rfl

/-- Both halves of the wiped counter are 0. -/
theorem observeUnit_finalizedUnit_len (hsel : sel.toNat = 0x01 ∨ sel.toNat = 0x02) :
    observeUnit (finalizedUnit c) free sel = 0 := by
  obtain hlo | hhi := hsel
  · have hhalf : (finalizedUnit c).lenLo = 0 := BitVec.extractLsb'_zero
    rw [observeUnit, hlo]
    exact hhalf
  · have hhalf : (finalizedUnit c).lenHi = 0 := BitVec.extractLsb'_zero
    rw [observeUnit, hhi]
    exact hhalf

/-- The selectors other than STATUS and DOUT, range by range (spec/10_state.md R28). -/
theorem observeUnit_finalizedUnit_eq_zero (hstatus : sel ≠ 0)
    (hdout : ¬(0x80 ≤ sel.toNat ∧ sel.toNat < 0x80 + DL u)) : observeUnit (finalizedUnit c) free sel = 0 := by
  have hpos : sel.toNat ≠ 0 := fun h => hstatus (BitVec.eq_of_toNat_eq h)
  by_cases hh : 0x04 ≤ sel.toNat ∧ sel.toNat < 0x04 + NW u
  · exact observeUnit_finalizedUnit_h c free (j := sel.toNat - 0x04) (by omega) (by omega)
  by_cases hbuf : 0x40 ≤ sel.toNat ∧ sel.toNat < 0x40 + 64
  · exact observeUnit_finalizedUnit_buf c free (i := sel.toNat - 0x40) (by omega) (by omega)
  by_cases hlen : sel.toNat = 0x01 ∨ sel.toNat = 0x02
  · exact observeUnit_finalizedUnit_len c free hlen
  · exact observeUnit_reserved _ _ (by omega)

end

/-- Settles O27: FINAL leaves `finalizedUnit`, whose DOUT is the digest in the response. -/
theorem wipeIsObservable : Obligations.WipeIsObservable := by
  intro u s active
  obtain ⟨t, ht, hdone⟩ := exec_final_traced active
  refine ⟨t, _, _, ht, hdone.response, fun sel hstatus hdout => ?wiped, fun k hk => ?digest⟩
  case wiped =>
    rw [observe, hdone.own]
    exact observeUnit_finalizedUnit_eq_zero _ _ hstatus hdout
  case digest =>
    have hDL : DL u ≤ 20 := by cases u <;> decide
    have hsel : (BitVec.ofNat 8 (0x80 + k)).toNat = 0x80 + k := by
      rw [BitVec.toNat_ofNat, Nat.mod_eq_of_lt (by omega)]
    rw [observe, hdone.own, observeUnit_dout _ _ hk hsel]

end Sys2Proof.Proofs

/-! The errors (spec/60_exceptions.md): the cause that `check` finds and when it ends a command (R119, R120), the status
of every command as the first cause in the order of R123 (`firstCause`), what a failing command leaves alone (R125),
Corrupted and Finalized units (R126), and the steps that reach no unit (R121, R133). -/

namespace Sys2Proof.Proofs

open Sys2Proof.Machine

/-! ## Steps that reach no unit (R121, R133) -/

theorem step_idle {s : State} (hs : s.inbox = []) : step s = .next s := by
  simp [step, hs]

/-- Settles O7. -/
theorem idleStepKeepsState : Obligations.IdleStepKeepsState := fun _ => step_idle

/-- Settles O6: decode rejects a code with a fault (`decode_error_iff`). -/
theorem illegalCodeChangesNothing : Obligations.IllegalCodeChangesNothing := by
  refine ⟨rfl, fun s f rest hs hfault => ?_⟩
  obtain ⟨e, he⟩ := (decode_error_iff f).mpr hfault
  exact step_illegal hs he

/-! ## The causes that check finds (R119, R120) -/

theorem check_eq_nullInput {l : Life} {p : Bool} :
    check l p = some .nullInput ↔ l = .absent ∨ p = false := by
  cases l <;> cases p <;> decide

theorem check_eq_stateError {l : Life} {p : Bool} :
    check l p = some .stateError ↔ (l = .finalized ∨ l = .corrupted) ∧ p = true := by
  cases l <;> cases p <;> decide

section
variable {u : UnitId} {c c' : HashUnit u} {i : Instr} {r : Response} {e : CommandError}

/-- An error that leaves LIFE alone is one that `check` found: an overflow makes an Active unit Corrupted. -/
theorem UnitEffect.check_of_error (h : UnitEffect c i c' r) (hlife : c'.life = c.life) (hr : r.status = .error e) :
    check c.life i.p = some e := by
  cases h with
  | init => cases hr
  | updateRejected operand e' fails => cases hr; rwa [update_p]
  | finalRejected sink e' fails => cases hr; rwa [final_p]
  | overflowed data active => exact nomatch hlife.trans active
  | absorbed => cases hr
  | finalized => cases hr

/-- What an error changes in the unit and what it answers (R118, R125). -/
theorem UnitEffect.of_error (h : UnitEffect c i c' r) (hr : r.status = .error e) :
    r = ⟨.error e, 0, none⟩ ∧ c' = { c with life := if e = .overflow then .corrupted else c.life } := by
  have rejected {p : Bool} (fails : check c.life p = some e) : e ≠ .overflow := by
    obtain rfl | rfl := check_error fails <;> decide
  cases h with
  | init => cases hr
  | updateRejected operand e' fails => cases hr; exact ⟨rfl, by rw [if_neg (rejected fails)]⟩
  | finalRejected sink e' fails => cases hr; exact ⟨rfl, by rw [if_neg (rejected fails)]⟩
  | overflowed => cases hr; exact ⟨rfl, rfl⟩
  | absorbed => cases hr
  | finalized => cases hr

/-- Only INIT changes a Corrupted or Finalized unit (R126). -/
theorem UnitEffect.sticky (h : UnitEffect c i c' r) (hc : c.life = .corrupted ∨ c.life = .finalized) :
    c' = c ∨ i = .init u := by
  have inactive : c.life ≠ .active := by obtain hl | hl := hc <;> simp [hl]
  cases h with
  | init => exact .inr rfl
  | updateRejected => exact .inl rfl
  | finalRejected => exact .inl rfl
  | overflowed data active => exact absurd active inactive
  | absorbed data active => exact absurd active inactive
  | finalized active => exact absurd active inactive

end

/-- UPDATE and FINAL answer an error and change nothing else exactly when `check` finds the error. -/
theorem exec_eq_raise_iff {i : Instr} {s : State} {e : CommandError} (hop : i.op ≠ 0b01#2) :
    exec i s = .next (raise e s) ↔ check (s.unit i.unit).life i.p = some e := by
  constructor
  · intro h
    obtain ⟨c, r, heffect, hdone⟩ := exec_effect h
    obtain rfl := List.singleton_inj.mp (List.append_cancel_left hdone.response)
    exact heffect.check_of_error (by rw [← hdone.own, raise_unit]) rfl
  · generalize hu : i.unit = u
    obtain hi | ⟨operand, hi⟩ | ⟨sink, hi⟩ := instr_cases i <;> rw [hu] at hi <;> subst hi <;> intro h
    · exact absurd (init_op u) hop
    · rw [update_p] at h
      rw [exec_update, updateUnit_of_error h]
    · rw [final_p] at h
      rw [exec_final, finalUnit_of_error h]

section
variable (u : UnitId) (s : State) (e : CommandError)

theorem exec_update_eq_raise_iff (operand : Option (List Byte)) :
    exec (.update u operand) s = .next (raise e s) ↔ check (s.unit u).life operand.isSome = some e := by
  rw [exec_eq_raise_iff (by simp), update_unit, update_p]

theorem exec_final_eq_raise_iff (sink : Bool) :
    exec (.final u sink) s = .next (raise e s) ↔ check (s.unit u).life sink = some e := by
  rw [exec_eq_raise_iff (by simp), final_unit, final_p]

end

/-- Settles O18: `check` raises it exactly for an Absent unit or P = 0, and INIT answers OK. -/
theorem nullInputErrorCauses : Obligations.NullInputErrorCauses := by
  refine ⟨rfl, fun u s => ⟨fun operand => ?update, fun sink => ?final, fun t ht => ?init⟩⟩
  case update =>
    rw [← Option.isSome_eq_false_iff.trans Option.isNone_iff_eq_none, ← check_eq_nullInput]
    exact exec_update_eq_raise_iff u s .nullInput operand
  case final =>
    rw [← check_eq_nullInput]
    exact exec_final_eq_raise_iff u s .nullInput sink
  case init =>
    obtain ⟨t', ht', hdone⟩ := exec_init_traced u s
    cases ht.symm.trans ht'
    rw [hdone.response]
    simp

/-- Settles O19: `check` raises it exactly for a Finalized or Corrupted unit with P = 1. -/
theorem stateErrorCauses : Obligations.StateErrorCauses := by
  refine ⟨rfl, fun u s => ⟨fun operand => ?update, fun sink => ?final⟩⟩
  case update =>
    rw [← Option.isSome_iff_ne_none, ← check_eq_stateError]
    exact exec_update_eq_raise_iff u s .stateError operand
  case final =>
    rw [← check_eq_stateError]
    exact exec_final_eq_raise_iff u s .stateError sink

/-! ## The order of the causes (R123) -/

/-- The status of a legal command: the first cause in the order of R123, from the command's OP, P and count `n` and the
addressed unit's LIFE and LEN. -/
def firstCause (op : BitVec 2) (p : Bool) (life : Life) (len : Count) (n : Nat) : Status :=
  if op = 0b01#2 then .ok
  else if life = .absent then .error .nullInput
  else if p = false then .error .nullInput
  else if life = .finalized ∨ life = .corrupted then .error .stateError
  else if op = 0b10#2 ∧ 2 ^ 64 ≤ len.toNat + 8 * n then .error .overflow
  else .ok

section
variable {op : BitVec 2} {p : Bool} {life : Life} {len : Count} {n : Nat}

/-- The causes R123 puts before the overflow are those of `check`, in its order. -/
theorem firstCause_of_check_error {e : CommandError} (hop : op ≠ 0b01#2) (h : check life p = some e) :
    firstCause op p life len n = .error e := by
  cases life <;> cases p <;> cases h <;> simp [firstCause, hop]

theorem firstCause_of_active (hop : op ≠ 0b01#2) :
    firstCause op true .active len n = if op = 0b10#2 ∧ 2 ^ 64 ≤ len.toNat + 8 * n then .error .overflow else .ok := by
  simp [firstCause, hop]

/-- The count matters to an UPDATE with P = 1 only. -/
theorem firstCause_count_irrelevant (h : ¬(op = 0b10#2 ∧ p = true)) (m : Nat) :
    firstCause op p life len n = firstCause op p life len m := by
  cases p with
  | false => simp [firstCause]
  | true =>
    have hop : op ≠ 0b10#2 := fun ho => h ⟨ho, rfl⟩
    simp [firstCause, hop]

end

/-- The status of every command is the first cause. -/
theorem UnitEffect.status_eq_firstCause {u : UnitId} {c c' : HashUnit u} {i : Instr} {r : Response}
    (h : UnitEffect c i c' r) : r.status = firstCause i.op i.p c.life c.len i.operandBytes.length := by
  cases h with
  | init => rw [init_op]; rfl
  | updateRejected operand e fails =>
    rw [update_op, update_p, firstCause_of_check_error (by decide) fails]
  | finalRejected sink e fails =>
    rw [final_op, final_p, firstCause_of_check_error (by decide) fails]
  | overflowed data active excess =>
    rw [update_op, update_p, active, Option.isSome_some, firstCause_of_active (by decide), update_operandBytes,
      if_pos ⟨rfl, excess⟩]
  | absorbed data active fits =>
    rw [update_op, update_p, active, Option.isSome_some, firstCause_of_active (by decide), update_operandBytes,
      if_neg fun ⟨_, excess⟩ => Nat.not_lt.mpr excess fits]
  | finalized active =>
    rw [final_op, final_p, active, firstCause_of_active (by decide), if_neg fun ⟨hop, _⟩ => absurd hop (by decide)]

/-- The first cause read from the decoded command is the one read from the frame: the bytes R56 ignores do not count. -/
theorem HasFieldsOf.firstCause_eq {i : Instr} {f : Frame} (h : HasFieldsOf i f) (life : Life) (len : Count) :
    firstCause i.op i.p life len i.operandBytes.length = firstCause (ccOp f.cc) (ccP f.cc) life len f.data.length := by
  rw [h.op, h.p, h.operandBytes]
  split
  · rfl
  · next hignored => exact firstCause_count_irrelevant hignored _

/-- Settles O20: an illegal code answers IllegalCommand; a legal one answers the first cause of its command, whose fields
are those of the frame. -/
theorem errorPriority : Obligations.ErrorPriority := by
  intro s f rest hs
  obtain ⟨hlegal, -⟩ := legalCodesAreTheTen f
  cases hd : decode f with
  | error e =>
    have hillegal : f.cc ∉ legalCodes := fun hcc => by
      obtain ⟨i, hi⟩ := hlegal.mpr hcc
      exact nomatch hd.symm.trans hi
    exact ⟨_, _, step_illegal hs hd, raise_responses .., (if_pos hillegal).symm⟩
  | ok i =>
    have hfields := hasFieldsOf_of_decode hd
    obtain ⟨t, -, -, ht, -⟩ := exec_next i { s with inbox := rest }
    obtain ⟨c, r, heffect, hdone⟩ := exec_effect ht
    refine ⟨t, r, (step_command hs hd).trans ht, hdone.response, ?_⟩
    rw [if_neg (not_not_intro (hlegal.mp ⟨i, hd⟩)), ← hfields.unit, heffect.status_eq_firstCause, take_unit]
    exact hfields.firstCause_eq _ _

/-! ## What a failing command leaves alone (R118, R125) -/

section
variable (u : UnitId) (s : State)

theorem updateUnit_trace_or_ok (operand : Option (List Byte)) :
    (updateUnit u operand s).trace = s.trace ∨
      ∃ n d, (updateUnit u operand s).responses = s.responses ++ [⟨.ok, n, d⟩] := by
  obtain ⟨e, -, h⟩ | ⟨data, -, -, -, h⟩ | ⟨data, -, -, -, h⟩ := updateUnit_cases (u := u) (s := s) operand <;> rw [h]
  · exact .inl (raise_trace ..)
  · exact .inl ((raise_trace ..).trans (setUnit_trace ..))
  · exact .inr ⟨_, _, (commandDone_respond ..).response⟩

theorem finalUnit_trace_or_ok (sink : Bool) :
    (finalUnit u sink s).trace = s.trace ∨
      ∃ n d, (finalUnit u sink s).responses = s.responses ++ [⟨.ok, n, d⟩] := by
  obtain ⟨e, -, h⟩ | ⟨-, -, h⟩ := finalUnit_cases (u := u) (s := s) sink <;> rw [h]
  · exact .inl (raise_trace ..)
  · exact .inr ⟨_, _, (commandDone_respond ..).response⟩

end

/-- A command that compresses a block answers OK. -/
theorem exec_trace_or_ok {i : Instr} {s t : State} (h : exec i s = .next t) :
    t.trace = s.trace ∨ ∃ n d, t.responses = s.responses ++ [⟨.ok, n, d⟩] := by
  obtain hi | ⟨operand, hi⟩ | ⟨sink, hi⟩ := instr_cases i <;> rw [hi] at h
  · rw [exec_init] at h
    cases h
    exact .inl (setUnit_trace ..)
  · rw [exec_update] at h
    cases h
    exact updateUnit_trace_or_ok ..
  · rw [exec_final] at h
    cases h
    exact finalUnit_trace_or_ok ..

/-- Settles O21: the response and the unit by `UnitEffect.of_error`, the trace by `exec_trace_or_ok`. -/
theorem failingCommandHasNoOtherEffect : Obligations.FailingCommandHasNoOtherEffect := by
  intro i s t r e ht hresponse hr
  obtain ⟨c, r', heffect, hdone⟩ := exec_effect ht
  obtain rfl := List.singleton_inj.mp (List.append_cancel_left (hresponse.symm.trans hdone.response))
  obtain ⟨hbare, hunit⟩ := heffect.of_error hr
  have htrace : t.trace = s.trace := by
    obtain htrace | ⟨n, d, hok⟩ := exec_trace_or_ok ht
    · exact htrace
    · obtain rfl := List.singleton_inj.mp (List.append_cancel_left (hresponse.symm.trans hok))
      exact nomatch hr
  exact ⟨hbare, htrace, hdone.outside, hdone.own.trans hunit⟩

/-! ## Corrupted and Finalized units (R126) -/

theorem check_of_sticky {l : Life} (h : l = .corrupted ∨ l = .finalized) (p : Bool) :
    check l p = some (if p = true then .stateError else .nullInput) := by
  obtain rfl | rfl := h <;> cases p <;> rfl

/-- UPDATE and FINAL to a Corrupted or Finalized unit change nothing. -/
theorem exec_of_sticky {i : Instr} {s : State} (hop : i.op ≠ 0b01#2)
    (h : (s.unit i.unit).life = .corrupted ∨ (s.unit i.unit).life = .finalized) :
    exec i s = .next (raise (if i.p = true then .stateError else .nullInput) s) :=
  (exec_eq_raise_iff hop).mpr (check_of_sticky h i.p)

/-- Settles O22: commands by `exec_of_sticky`, steps by `UnitEffect.sticky`, and an overflow writes LIFE alone. -/
theorem corruptedIsSticky : Obligations.CorruptedIsSticky := by
  refine ⟨?commands, ?steps, ?overflow⟩
  case commands =>
    intro u s i hlife hi
    have hcommand : i.op ≠ 0b01#2 ∧ i.unit = u := by
      obtain ⟨operand, rfl⟩ | ⟨sink, rfl⟩ := hi <;> simp
    obtain ⟨hop, rfl⟩ := hcommand
    exact ⟨_, exec_of_sticky hop hlife, raise_unit .., raise_responses ..⟩
  case steps =>
    intro u s t hlife ht
    obtain hu | ⟨hreset, -⟩ | ⟨f, rest, i, r, hi, hd, heffect, -⟩ := step_unit_cases u ht
    · exact .inl hu
    · exact .inr (.inl hreset)
    · obtain hu | rfl := heffect.sticky hlife
      · exact .inl hu
      · exact .inr (.inr ⟨f, rest, hi, hd⟩)
  case overflow =>
    intro u s data active excess
    obtain ⟨t, ht, hdone⟩ := exec_update_overflow_traced active excess
    refine ⟨t, ht, ?_⟩
    rw [hdone.own]
    exact ⟨rfl, rfl, rfl, rfl⟩

end Sys2Proof.Proofs

/-! The reset event (spec/70_reset_and_hazards.md R135): one equation for the step that takes it, and the statement that
follows from it and the values after reset. -/

namespace Sys2Proof.Proofs

open Sys2Proof.Machine

theorem step_reset {s : State} {rest : List Transaction} (hs : s.inbox = .reset :: rest) :
    step s = .next (resetUnits { s with inbox := rest }) := by
  simp [step, hs]

/-- Settles O8: the step is `resetUnits`, which keeps the port records and gives each unit the values of `resetValues`. -/
theorem resetEventClearsUnits : Obligations.ResetEventClearsUnits := by
  intro s rest hs
  refine ⟨_, step_reset hs, resetUnits_inbox _, resetUnits_responses _, resetUnits_reads _, resetUnits_trace _,
    resetUnits_freeIndex _, fun u => ?_⟩
  rw [resetUnits_unit, ← reset_unit]
  exact resetValues u

end Sys2Proof.Proofs
